-- ==== Sys2Proof/Word.lean ====
section
/-! DEFINITION. Word.lean: the three widths of the spec. A byte is 8 bits, the CRC register, STATUS and RESULT
are 16 bits (00_scope.md R7, 10_state.md R20), a command word is 32 bits (30_encoding.md R70). Every value is
unsigned (00_scope.md R10). -/

namespace Sys2Proof

/-- One byte of IN, OUT or a CFG field (R7). -/
abbrev Byte := BitVec 8

/-- A 16-bit value: the CRC register, STATUS, RESULT (R7, R20). -/
abbrev Half := BitVec 16

/-- A 32-bit command word, or CFG read whole (R70, R203). -/
abbrev Word := BitVec 32

end Sys2Proof
end

