-- ==== Sys2Proof/Config.lean ====
section
/-! DEFINITION. Config.lean: the codec constants' type, the reset parameters the spec fixes, and the one parameter
it leaves OPEN on the host's side (00_scope.md R8). BUF_MAX, the other OPEN parameter, is a constant field of State
(log 4), so that a statement holds for each value of it. -/

namespace Sys2Proof

/-- The four constants of the generic byte-stuffing codec (10_state.md R23). -/
structure Cfg where
  /-- CFG bits 7:0, the delimiter. -/
  delim : Byte
  /-- CFG bits 15:8, the escape byte. -/
  esc : Byte
  /-- CFG bits 23:16, what stands for a delimiter after an escape. -/
  dsub : Byte
  /-- CFG bits 31:24, what stands for an escape byte after an escape. -/
  esub : Byte
deriving DecidableEq, Repr

/-- `SEQ_RESET`, which the spec fixes at 0 (10_state.md R21, 00_scope.md R8). -/
def Config.seqReset : BitVec 3 := 0

/-- CFG at reset: the KISS and DFU constants (10_state.md R24). -/
def Config.cfgReset : Cfg := ⟨0xC0, 0xDB, 0xDC, 0xDD⟩

/-- `APP_MODE`, OPEN and host-side only (42_dfu_frame.md R187): no value, so no proof can lean on one (log 9). -/
opaque Config.appMode : Word

end Sys2Proof
end

