-- ==== Sys2Proof/Syntax.lean ====
section
/-! DEFINITION. Syntax.lean: the six commands of the opcode map (30_encoding.md R72), the names of CFG's fields
(R74) and of the register port (43_control.md R202), and the three fields of a command word (R71). -/

namespace Sys2Proof

/-- The CFG field a WRCFG selects (30_encoding.md R74). -/
inductive CfgField where
  | delim
  | esc
  | dsub
  | esub
deriving DecidableEq, Repr

/-- The four registers of the read port (43_control.md R202). -/
inductive PortReg where
  | status
  | result
  | seq
  | cfg
deriving DecidableEq, Repr

/-- The commands, one constructor per row of the opcode table. IN is no part of the word (R74). -/
inductive Instr where
  /-- 0x01: stuff-encode IN (40_stuffing.md R102). -/
  | senc
  /-- 0x02: stuff-encode IN and wrap it between delimiters (40_stuffing.md R103). -/
  | sencw
  /-- 0x03: decode one frame of IN (40_stuffing.md R104). -/
  | sdec
  /-- 0x04: checksum of IN from a seed (41_crc16.md R142). -/
  | crc16 (seed : Half)
  /-- 0x05: build one DFU frame of the payload IN (42_dfu_frame.md R160). -/
  | dfufrm
  /-- 0x06: write one CFG field (43_control.md R200). -/
  | wrcfg (field : CfgField) (value : Byte)
deriving DecidableEq, Repr

/-- The three fields of a command word (30_encoding.md R71): any word has them, legal or not. -/
structure Fields where
  op : Byte
  sel : Byte
  imm : Half
deriving DecidableEq, Repr

end Sys2Proof
end

