-- ==== Sys2Proof/WellFormed.lean ====
section
/-! DEFINITION. WellFormed.lean: which command words are legal (30_encoding.md R75), as a check of a word's three
fields. A term of Instr carries a CFG field by name and its seed or value at its width, so each such term is the
reading of a legal word; what can be ill-formed is a WORD, and this is its check. The decoder does not call it: that
the two agree is a statement. -/

namespace Sys2Proof

/-- The opcodes of the map (30_encoding.md R72). -/
def Fields.opAssigned (f : Fields) : Bool :=
  f.op == 0x01 || f.op == 0x02 || f.op == 0x03 || f.op == 0x04 || f.op == 0x05 || f.op == 0x06

/-- SEL selects a CFG field for WRCFG and is 0 otherwise (30_encoding.md R71, R74). -/
def Fields.selAllowed (f : Fields) : Bool :=
  if f.op == 0x06 then decide (f.sel.toNat ≤ 3) else f.sel == 0

/-- IMM is free for CRC16, holds a byte value for WRCFG, and is 0 otherwise (30_encoding.md R71, R73). -/
def Fields.immAllowed (f : Fields) : Bool :=
  if f.op == 0x04 then true
  else if f.op == 0x06 then decide (f.imm.toNat < 256)
  else f.imm == 0

/-- `CmdLegal` (30_encoding.md R75). -/
def Fields.legal (f : Fields) : Bool :=
  f.opAssigned && f.selAllowed && f.immAllowed

end Sys2Proof
end

