-- ==== Sys2Proof/Decode.lean ====
section
/-! DEFINITION. Decode.lean: the decoder of command words, total on every 32-bit word and rejecting by name
(30_encoding.md R70 to R77), and after it the encoder, written from the assembler's words (R78). -/

namespace Sys2Proof

/-- Why a word is not legal: its opcode is not assigned, or a reserved part of SEL or of IMM is not as R75 asks. All
three are ErrIllegal (R76); the order in which they are named is the model's (log 7). -/
inductive IllegalCause where
  | opcode
  | sel
  | imm
deriving DecidableEq, Repr

/-- What a word decodes to (R77): one of the six commands, or Illegal. -/
inductive Decoded where
  | instr (i : Instr)
  | illegal (why : IllegalCause)
deriving DecidableEq, Repr

/-- OP = w[7:0] (R71). -/
def opOf (w : Word) : Byte := w.extractLsb' 0 8

/-- SEL = w[15:8] (R71). -/
def selOf (w : Word) : Byte := w.extractLsb' 8 8

/-- IMM = w[31:16] (R71). -/
def immOf (w : Word) : Half := w.extractLsb' 16 16

/-- WRCFG's value w[23:16] (R73). -/
def valueOf (w : Word) : Byte := w.extractLsb' 16 8

/-- w[31:24], which is 0 in a WRCFG (R71, R75). -/
def reservedOf (w : Word) : Byte := w.extractLsb' 24 8

/-- The fields of a word together (R71). -/
def fieldsOf (w : Word) : Fields := ⟨opOf w, selOf w, immOf w⟩

/-- The CFG field that SEL selects; 4..255 select none (R74). -/
def fieldOfSel (sel : Byte) : Option CfgField :=
  if sel = 0#8 then some .delim
  else if sel = 1#8 then some .esc
  else if sel = 2#8 then some .dsub
  else if sel = 3#8 then some .esub
  else none

/-- A word of one of the four commands without operands: SEL and IMM are 0 (R75). -/
def decodePlain (w : Word) (i : Instr) : Decoded :=
  if selOf w ≠ 0#8 then .illegal .sel
  else if immOf w ≠ 0#16 then .illegal .imm
  else .instr i

/-- A CRC16 word: SEL is 0 and IMM is the seed (R73, R75). -/
def decodeCrc16 (w : Word) : Decoded :=
  if selOf w ≠ 0#8 then .illegal .sel else .instr (.crc16 (immOf w))

/-- A WRCFG word: SEL names a field, w[31:24] is 0 and w[23:16] is the value (R73 to R75). -/
def decodeWrcfg (w : Word) : Decoded :=
  match fieldOfSel (selOf w) with
  | none => .illegal .sel
  | some f => if reservedOf w ≠ 0#8 then .illegal .imm else .instr (.wrcfg f (valueOf w))

/-- The decoder (R72, R75, R77). -/
def decode (w : Word) : Decoded :=
  if opOf w = 0x01#8 then decodePlain w .senc
  else if opOf w = 0x02#8 then decodePlain w .sencw
  else if opOf w = 0x03#8 then decodePlain w .sdec
  else if opOf w = 0x04#8 then decodeCrc16 w
  else if opOf w = 0x05#8 then decodePlain w .dfufrm
  else if opOf w = 0x06#8 then decodeWrcfg w
  else .illegal .opcode

/-- The SEL of a CFG field (R74). -/
def selOfField : CfgField → Byte
  | .delim => 0#8
  | .esc => 1#8
  | .dsub => 2#8
  | .esub => 3#8

/-- The word of a command (R78). -/
def encode : Instr → Word
  | .senc => 0x00000001
  | .sencw => 0x00000002
  | .sdec => 0x00000003
  | .crc16 seed => 0x00000004 ||| (seed.setWidth 32 <<< 16)
  | .dfufrm => 0x00000005
  | .wrcfg f v => 0x00000006 ||| ((selOfField f).setWidth 32 <<< 8) ||| (v.setWidth 32 <<< 16)

/-- The instruction the decoder reads from a word of the opcode table, its bits above nbits being 0. Command words
reach the block as 32-bit numbers (R70, R62), so there is no byte order to apply (log 8). -/
def decodeTableWord (nbits w : Nat) : Option Instr :=
  match decode (BitVec.ofNat 32 (w % 2 ^ nbits)) with
  | .instr i => some i
  | .illegal _ => none

/-- One match/mask row of the opcode table (R75). -/
structure OpcodeRow where
  mnemonic : String
  pattern : Word
  mask : Word
deriving DecidableEq, Repr

/-- The rows of R75 and of spec/opcode_table.json. -/
def opcodeRows : List OpcodeRow :=
  [⟨"SENC", 0x00000001, 0xFFFFFFFF⟩, ⟨"SENCW", 0x00000002, 0xFFFFFFFF⟩, ⟨"SDEC", 0x00000003, 0xFFFFFFFF⟩,
   ⟨"CRC16", 0x00000004, 0x0000FFFF⟩, ⟨"DFUFRM", 0x00000005, 0xFFFFFFFF⟩, ⟨"WRCFG", 0x00000006, 0xFF00FCFF⟩]

/-- A word is of a row when `(w & mask) == match` (R75). -/
def OpcodeRow.matchesWord (r : OpcodeRow) (w : Word) : Bool := (w &&& r.mask) == r.pattern

/-- The opcode-table mnemonic of a command (R72). -/
def mnemonicOf : Instr → String
  | .senc => "SENC"
  | .sencw => "SENCW"
  | .sdec => "SDEC"
  | .crc16 _ => "CRC16"
  | .dfufrm => "DFUFRM"
  | .wrcfg _ _ => "WRCFG"

end Sys2Proof
end

