-- ==== Sys2Proof/Machine/State.lean ====
section
/-! DEFINITION. Machine/State.lean: what the machine holds. The block's registers are SEQ, CFG, STATUS and RESULT
and nothing else (10_state.md R20, R33); beside them stand the data paths between host and block (20_memory.md R50:
IN, OUT, the register read port), the host's coming actions (60_exceptions.md R228) and the constant BUF_MAX (R52). -/

namespace Sys2Proof.Machine

/-- What the host can do to the block, one action a step (60_exceptions.md R228). -/
inductive HostAction where
  /-- Issue a 32-bit command word with its input sequence IN (30_encoding.md R70, 20_memory.md R51). -/
  | command (word : Word) (input : List Byte)
  /-- Read the register of this port number (43_control.md R202). -/
  | readReg (number : Nat)
  /-- Assert the reset input (70_reset_and_hazards.md R250). -/
  | reset
deriving DecidableEq, Repr

/-- Faults: there are none. An error of the block is no stop but a value of STATUS (60_exceptions.md R221, R227), so
no rule raises a fault and the type has no constructor (log 5). Safe: nothing is hidden in it. -/
inductive Fault where
deriving DecidableEq, Repr

/-- Why the model has no step (log 12). -/
inductive Refusal where
  /-- An arm of exec that has no meaning yet; no arm raises it now. Safe. -/
  | notModelled (mnemonic : String)
  /-- Raised when the host issues a command with `len(IN) > BUF_MAX` (20_memory.md R52, 60_exceptions.md R231). Safe:
  the spec gives the issue no step. -/
  | inputTooLong
  /-- Raised by a register read of a number other than 0..3 (43_control.md R202, R231). Safe. -/
  | noSuchPort (number : Nat)
  /-- Raised by a read of RESULT while it holds no value: the spec's own stop (43_control.md R204, 10_state.md R29,
  60_exceptions.md R231, 92_eei_decisions.md D13). Safe. -/
  | resultHasNoValue
deriving DecidableEq, Repr

/-- The machine's state. The first four fields are the block's registers (10_state.md R20), the others the data paths
and the host. -/
structure State where
  /-- SEQ, the DFU sequence counter (R21). -/
  seq : BitVec 3
  /-- CFG, the generic codec constants (R23). -/
  cfg : Cfg
  /-- STATUS (R26). -/
  status : Half
  /-- RESULT, 16 bits or no value (R20, R29). -/
  result : Option Half
  /-- IN of the command being executed; empty between commands (20_memory.md R51, 10_state.md R33). -/
  input : List Byte
  /-- OUT of the last command (20_memory.md R53). -/
  output : List Byte
  /-- How many bytes of IN the last command read (20_memory.md R51; log 2). -/
  consumed : Nat
  /-- What the last register read handed to the host (43_control.md R202; log 3). -/
  readData : Option Word
  /-- The host's coming actions, the next one first (60_exceptions.md R228; log 1). -/
  pending : List HostAction
  /-- BUF_MAX, none when unbounded (20_memory.md R52); nothing writes it (log 4). -/
  bufMax : Option Nat
deriving DecidableEq, Repr

/-- The machine right after reset (10_state.md R35), with no host action pending (log 1) and BUF_MAX unbounded
(log 4). -/
def State.reset : State where
  seq := Config.seqReset
  cfg := Config.cfgReset
  status := 0x0000
  result := none
  input := []
  output := []
  consumed := 0
  readData := none
  pending := []
  bufMax := none

end Sys2Proof.Machine
end

