-- ==== Sys2Proof/Machine/Operands.lean ====
section
/-! DEFINITION. Machine/Operands.lean: the operands of a command and of the register port: CFG's fields and its
legality (10_state.md R23, R25), the bound on IN (20_memory.md R52), port numbers (43_control.md R202), the fixed
constants (10_state.md R30) and the byte orders (00_scope.md R11). -/

namespace Sys2Proof.Machine

/-- The field of CFG that a WRCFG selects (R23, R74). -/
def cfgField (c : Cfg) : CfgField → Byte
  | .delim => c.delim
  | .esc => c.esc
  | .dsub => c.dsub
  | .esub => c.esub

/-- CFG with one field written whole, the other three as before (R23, R200). -/
def setCfgField (c : Cfg) (f : CfgField) (v : Byte) : Cfg :=
  match f with
  | .delim => { c with delim := v }
  | .esc => { c with esc := v }
  | .dsub => { c with dsub := v }
  | .esub => { c with esub := v }

/-- CFG read whole (43_control.md R203). -/
def cfgWord (c : Cfg) : Word :=
  c.delim.setWidth 32 ||| (c.esc.setWidth 32 <<< 8) ||| (c.dsub.setWidth 32 <<< 16) ||| (c.esub.setWidth 32 <<< 24)

/-- `CfgLegal` (10_state.md R25). -/
def cfgLegal (c : Cfg) : Bool := c.delim != c.esc && c.dsub != c.esub

/-- The host can issue a command with this IN: it is no longer than BUF_MAX (20_memory.md R52). -/
def admitsInput (s : State) (bytes : List Byte) : Bool :=
  match s.bufMax with
  | none => true
  | some n => decide (bytes.length ≤ n)

/-- The register of a port number (43_control.md R202). -/
def portOfNumber : Nat → Option PortReg
  | 0 => some .status
  | 1 => some .result
  | 2 => some .seq
  | 3 => some .cfg
  | _ => none

/-- The whole value of a register at the port, zero-extended to 32 bits; RESULT may hold none (R202, R204). -/
def portValue (s : State) : PortReg → Option Word
  | .status => some (s.status.setWidth 32)
  | .result => s.result.map (fun r => r.setWidth 32)
  | .seq => some (s.seq.setWidth 32)
  | .cfg => some (cfgWord s.cfg)

/-- The DFU frame's stuffing constants, wired in (10_state.md R30, 42_dfu_frame.md R170). -/
def dfuCodec : Cfg := ⟨0xC0, 0xDB, 0xDC, 0xDD⟩

/-- `DIP`, the data-integrity flag (R30). -/
def dip : Nat := 1

/-- `RP`, the reliable flag (R30). -/
def rp : Nat := 1

/-- `HTYPE`, the header's packet-type tag (R30). -/
def htype : Nat := 14

/-- The seed of the DFU frame's CRC (R30). -/
def dfuSeed : Half := 0xFFFF

/-- `LEN_MAX`, what a 12-bit length field can hold (42_dfu_frame.md R161). -/
def lenMax : Nat := 4095

/-- `le16(v)`, low byte first (00_scope.md R11). -/
def le16 (v : Half) : List Byte := [v.extractLsb' 0 8, v.extractLsb' 8 8]

/-- `le32(v)`, lowest byte first (00_scope.md R11). -/
def le32 (v : Word) : List Byte :=
  [v.extractLsb' 0 8, v.extractLsb' 8 8, v.extractLsb' 16 8, v.extractLsb' 24 8]

end Sys2Proof.Machine
end

