-- ==== Sys2Proof/Machine/Flags.lean ====
section
/-! DEFINITION. Machine/Flags.lean: STATUS, the block's only flags (10_state.md R26, R34): its bits by name, the values
of the three errors (60_exceptions.md R220) and the value an SDEC writes (40_stuffing.md R104). -/

namespace Sys2Proof.Machine

/-- The block's three errors (60_exceptions.md R220). -/
inductive Err where
  /-- ErrIllegal: the word is not legal. -/
  | illegal
  /-- ErrCfg: a stuffing command met an illegal CFG. -/
  | cfg
  /-- ErrLen: a DFUFRM payload is longer than 4095 bytes. -/
  | len
deriving DecidableEq, Repr

/-- The STATUS value of an error (R220). -/
def errCode : Err → Half
  | .illegal => 0x0001
  | .cfg => 0x0002
  | .len => 0x0004

/-- What a command that completes without error writes, SDEC apart (10_state.md R27). -/
def statusOk : Half := 0x0000

/-- One STATUS bit, set or clear, at its place. -/
def statusBit (b : Bool) (place : Nat) : Half := if b then 1#16 <<< place else 0#16

/-- The STATUS value of an SDEC: `(nolead << 7) | (trailesc << 6) | (badesc << 5) | (term << 4)` (R104). -/
def decStatus (term badesc trailesc nolead : Bool) : Half :=
  statusBit nolead 7 ||| statusBit trailesc 6 ||| statusBit badesc 5 ||| statusBit term 4

/-- STATUS bit 0 (R26). -/
def errIllegalBit (v : Half) : Bool := v.getLsbD 0

/-- STATUS bit 1 (R26). -/
def errCfgBit (v : Half) : Bool := v.getLsbD 1

/-- STATUS bit 2 (R26). -/
def errLenBit (v : Half) : Bool := v.getLsbD 2

/-- STATUS bit 4 (R26). -/
def decTermBit (v : Half) : Bool := v.getLsbD 4

/-- STATUS bit 5 (R26). -/
def decBadescBit (v : Half) : Bool := v.getLsbD 5

/-- STATUS bit 6 (R26). -/
def decTrailescBit (v : Half) : Bool := v.getLsbD 6

/-- STATUS bit 7 (R26). -/
def decNoleadBit (v : Half) : Bool := v.getLsbD 7

end Sys2Proof.Machine
end

