-- ==== Sys2Proof/Machine/Ops.lean ====
section
/-! DEFINITION. Machine/Ops.lean: the operations every command shares. A command begins with its IN presented and OUT
empty (20_memory.md R51, R53), and ends in ONE of two ways: `complete`, or `raiseError`, which is the block's whole
exception mechanism (60_exceptions.md R221): it saves nothing, goes nowhere and has no return (R227). Beside them the
two host actions that are no command: the register read (43_control.md R202) and reset (70_reset_and_hazards.md R250). -/

namespace Sys2Proof.Machine

/-- The next host action has been taken from the list (60_exceptions.md R228). -/
def popAction (rest : List HostAction) (s : State) : State := { s with pending := rest }

/-- The start of a command: IN presented, OUT empty, no byte read (20_memory.md R51, R53). -/
def present (bytes : List Byte) (s : State) : State :=
  { s with input := bytes, output := [], consumed := 0 }

/-- The end of a command: STATUS overwritten whole, OUT handed to the host, IN gone whether read or not
(10_state.md R27, R33, 20_memory.md R53). -/
def complete (status : Half) (out : List Byte) (read : Nat) (s : State) : State :=
  { s with status := status, output := out, consumed := read, input := [] }

/-- The effect of an error: STATUS is its value alone, OUT is empty, no byte of IN is read, and SEQ, CFG and RESULT
stay (60_exceptions.md R221; that an ErrLen reads no byte is DEDUCED, log 2). -/
def raiseError (e : Err) (s : State) : State := complete (errCode e) [] 0 s

/-- SEQ is written (10_state.md R21). -/
def writeSeq (v : BitVec 3) (s : State) : State := { s with seq := v }

/-- One field of CFG is written (43_control.md R200). -/
def writeCfgField (f : CfgField) (v : Byte) (s : State) : State := { s with cfg := setCfgField s.cfg f v }

/-- RESULT is written (10_state.md R29). -/
def writeResult (v : Half) (s : State) : State := { s with result := some v }

/-- The command runs only under a legal CFG; otherwise it raises ErrCfg (40_stuffing.md R115). -/
def underLegalCfg (s after : State) : Host.Outcome State Fault Refusal :=
  if cfgLegal s.cfg then .next after else .next (raiseError .cfg s)

/-- A register read: the value goes to the host and nothing of the block changes; a number without a register, and a
RESULT without a value, are refused (43_control.md R202, R204, R205). -/
def readPort (number : Nat) (s : State) : Host.Outcome State Fault Refusal :=
  match portOfNumber number with
  | none => .refused (.noSuchPort number)
  | some r =>
    match portValue s r with
    | none => .refused .resultHasNoValue
    | some v => .next { s with readData := some v }

/-- Reset: each register at its reset value, no OUT; the host's coming actions and BUF_MAX are not the block's to
change (70_reset_and_hazards.md R250, 10_state.md R35). -/
def hostReset (s : State) : State := { State.reset with pending := s.pending, bufMax := s.bufMax }

/-- What the word of a command that is not legal does (30_encoding.md R76). -/
def illegalWord (s : State) : State := raiseError .illegal s

end Sys2Proof.Machine
end

