-- ==== Sys2Proof/Machine/Control.lean ====
section
/-! DEFINITION. Machine/Control.lean: WRCFG (43_control.md R200). -/

namespace Sys2Proof.Machine

/-- WRCFG (R200): one field of CFG is written, IN is not read, legality is not checked (R201). -/
def execWrcfg (f : CfgField) (v : Byte) (s : State) : Host.Outcome State Fault Refusal :=
  .next (writeCfgField f v (complete statusOk [] 0 s))

end Sys2Proof.Machine
end

