-- ==== Sys2Proof/Machine/Crc.lean ====
section
/-! DEFINITION. Machine/Crc.lean: the CRC16 engine (41_crc16.md): the five sub-steps (R140), the fold (R141) and the
command (R142). -/

namespace Sys2Proof.Machine

/-- Sub-step 1: the high and the low byte change places (R140). -/
def crcSwap (reg : Half) : Half := ((reg >>> 8) &&& 0x00FF) ||| ((reg <<< 8) &&& 0xFF00)

/-- Sub-step 3 (R140). -/
def crcFoldHighNibble (reg : Half) : Half := reg ^^^ ((reg &&& 0x00FF) >>> 4)

/-- Sub-step 4: `reg << 12`, bits above 15 discarded (R140, R146). -/
def crcFoldTwelve (reg : Half) : Half := reg ^^^ ((reg <<< 8) <<< 4)

/-- Sub-step 5: the low byte, `<< 5` (R140). -/
def crcFoldFive (reg : Half) : Half := reg ^^^ (((reg &&& 0x00FF) <<< 4) <<< 1)

/-- `CrcStep`: each sub-step works on the register as the one before left it; the XOR with b is sub-step 2 (R140). -/
def crcStep (reg : Half) (b : Byte) : Half :=
  crcFoldFive (crcFoldTwelve (crcFoldHighNibble (crcSwap reg ^^^ b.setWidth 16)))

/-- `Crc16(s, seed)`: the fold over the bytes in order from the seed (R141). -/
def crc16 : List Byte → Half → Half
  | [], reg => reg
  | b :: bs, reg => crc16 bs (crcStep reg b)

/-- CRC16 (R142): RESULT is written, OUT is empty, all of IN is read (20_memory.md R51). -/
def execCrc16 (seed : Half) (s : State) : Host.Outcome State Fault Refusal :=
  .next (writeResult (crc16 s.input seed) (complete statusOk [] s.input.length s))

end Sys2Proof.Machine
end

