-- ==== Sys2Proof/Machine/Stuffing.lean ====
section
/-! DEFINITION. Machine/Stuffing.lean: byte stuffing (40_stuffing.md): StuffEnc (R100), StuffDec (R101) and the
commands SENC, SENCW and SDEC (R102 to R104). -/

namespace Sys2Proof.Machine

/-- What one byte becomes: an escape pair for the delimiter, tested first, and for the escape byte (R100). -/
def stuffByte (c : Cfg) (b : Byte) : List Byte :=
  if b = c.delim then [c.esc, c.dsub]
  else if b = c.esc then [c.esc, c.esub]
  else [b]

/-- `StuffEnc` (R100). -/
def stuffEnc (c : Cfg) : List Byte → List Byte
  | [] => []
  | b :: bs => stuffByte c b ++ stuffEnc c bs

/-- A body between one leading and one trailing delimiter (R103, 42_dfu_frame.md R170). -/
def wrapFrame (c : Cfg) (body : List Byte) : List Byte :=
  c.delim :: (stuffEnc c body ++ [c.delim])

/-- What the decoder's loop gives from some position on: the bytes it keeps, its flags, and how many bytes it reads
(R101; the reads make the position in IN of 10_state.md R32). -/
structure DecRun where
  bytes : List Byte
  term : Bool
  badesc : Bool
  trailesc : Bool
  read : Nat
deriving DecidableEq, Repr

/-- One byte was read and this one kept. -/
def keepByte (b : Byte) (r : DecRun) : DecRun := { r with bytes := b :: r.bytes, read := r.read + 1 }

/-- One byte was read and none kept: an escape byte. -/
def skipByte (r : DecRun) : DecRun := { r with read := r.read + 1 }

/-- One byte was read and dropped: an unknown escaped byte, which sets badesc (R105). -/
def dropByte (r : DecRun) : DecRun := { r with badesc := true, read := r.read + 1 }

/-- The end at an unescaped delimiter: it is read, nothing after it is (R106). -/
def endOfFrame : DecRun := ⟨[], true, false, false, 1⟩

/-- The loop of `StuffDec`, its Bool the escaping flag (R101): in the escaped state dsub is tested before esub and
either way the state ends (R105, R107); otherwise the escape byte is tested before the delimiter; input that ends
in the escaped state sets trailesc (R108). -/
def decLoop (c : Cfg) : Bool → List Byte → DecRun
  | escaping, [] => ⟨[], false, false, escaping, 0⟩
  | true, b :: bs =>
    if b = c.dsub then keepByte c.delim (decLoop c false bs)
    else if b = c.esub then keepByte c.esc (decLoop c false bs)
    else dropByte (decLoop c false bs)
  | false, b :: bs =>
    if b = c.esc then skipByte (decLoop c true bs)
    else if b = c.delim then endOfFrame
    else keepByte b (decLoop c false bs)

/-- What `StuffDec` returns: a run of the loop and the flag nolead (R101). -/
structure StuffDecoded where
  run : DecRun
  nolead : Bool
deriving DecidableEq, Repr

/-- `StuffDec` (R101): a leading delimiter is stripped, any other first byte is decoded as data and sets nolead
(R109); empty input gives nothing and no flag. -/
def stuffDec (c : Cfg) : List Byte → StuffDecoded
  | [] => ⟨decLoop c false [], false⟩
  | b :: bs =>
    if b = c.delim then ⟨skipByte (decLoop c false bs), false⟩
    else ⟨decLoop c false (b :: bs), true⟩

/-- SENC (R102). -/
def execSenc (s : State) : Host.Outcome State Fault Refusal :=
  underLegalCfg s (complete statusOk (stuffEnc s.cfg s.input) s.input.length s)

/-- SENCW (R103). -/
def execSencw (s : State) : Host.Outcome State Fault Refusal :=
  underLegalCfg s (complete statusOk (wrapFrame s.cfg s.input) s.input.length s)

/-- The STATUS value of a decoded IN (R104). -/
def sdecStatus (d : StuffDecoded) : Half := decStatus d.run.term d.run.badesc d.run.trailesc d.nolead

/-- SDEC (R104): no data makes it fail (60_exceptions.md R224). -/
def execSdec (s : State) : Host.Outcome State Fault Refusal :=
  let d := stuffDec s.cfg s.input
  underLegalCfg s (complete (sdecStatus d) d.run.bytes d.run.read s)

end Sys2Proof.Machine
end

