-- ==== Sys2Proof/Machine/Dfu.lean ====
section
/-! DEFINITION. Machine/Dfu.lean: the DFU frame encoder (42_dfu_frame.md): the 4-byte header (R163 to R167), the CRC
(R168, R169), the wrap (R170) and the command DFUFRM (R160). -/

namespace Sys2Proof.Machine

/-- `trunc_8` (00_scope.md R10). -/
def trunc8 (v : Nat) : Nat := v % 256

/-- Header byte0 (R163). -/
def headerByte0 (seq : Nat) : Nat := seq ||| (((seq + 1) % 8) <<< 3) ||| (dip <<< 6) ||| (rp <<< 7)

/-- Header byte1 (R164). -/
def headerByte1 (len : Nat) : Nat := htype ||| ((len &&& 0xF) <<< 4)

/-- Header byte2 (R165). -/
def headerByte2 (len : Nat) : Nat := (len &&& 0xFF0) >>> 4

/-- Header byte3, the two's complement of the sum of the other three (R166). -/
def headerByte3 (seq len : Nat) : Nat :=
  trunc8 (256 - trunc8 (headerByte0 seq + headerByte1 len + headerByte2 len))

/-- The header's four bytes in the order they are emitted (R167, 20_memory.md R54). -/
def dfuHeader (seq : BitVec 3) (len : Nat) : List Byte :=
  [BitVec.ofNat 8 (headerByte0 seq.toNat), BitVec.ofNat 8 (headerByte1 len), BitVec.ofNat 8 (headerByte2 len),
   BitVec.ofNat 8 (headerByte3 seq.toNat len)]

/-- Header and payload, the bytes the CRC covers (R168). -/
def dfuCovered (seq : BitVec 3) (payload : List Byte) : List Byte := dfuHeader seq payload.length ++ payload

/-- The frame's CRC, over the raw bytes (R168). -/
def dfuCrc (seq : BitVec 3) (payload : List Byte) : Half := crc16 (dfuCovered seq payload) dfuSeed

/-- The whole body before stuffing, the CRC low byte first (R169). -/
def dfuBody (seq : BitVec 3) (payload : List Byte) : List Byte := dfuCovered seq payload ++ le16 (dfuCrc seq payload)

/-- The frame: the body stuffed with the fixed constants, between two delimiters (R170). -/
def dfuFrame (seq : BitVec 3) (payload : List Byte) : List Byte := wrapFrame dfuCodec (dfuBody seq payload)

/-- DFUFRM (R160): the length is tested before anything is written (R161), then SEQ advances and the frame carries the
new SEQ (R162). CFG is not read (R171). -/
def execDfufrm (s : State) : Host.Outcome State Fault Refusal :=
  if lenMax < s.input.length then .next (raiseError .len s)
  else .next (writeSeq (s.seq + 1) (complete statusOk (dfuFrame (s.seq + 1) s.input) s.input.length s))

end Sys2Proof.Machine
end

