-- ==== Sys2Proof/Machine/Dispatch.lean ====
section
/-! DEFINITION. Machine/Dispatch.lean: one arm per command (30_encoding.md R72). -/

namespace Sys2Proof.Machine

def exec (i : Instr) (s : State) : Host.Outcome State Fault Refusal :=
  match i with
  | .senc => Sys2Proof.Machine.execSenc s
  | .sencw => Sys2Proof.Machine.execSencw s
  | .sdec => Sys2Proof.Machine.execSdec s
  | .crc16 seed => Sys2Proof.Machine.execCrc16 seed s
  | .dfufrm => Sys2Proof.Machine.execDfufrm s
  | .wrcfg f v => Sys2Proof.Machine.execWrcfg f v s

end Sys2Proof.Machine
end

