-- ==== Sys2Proof/Machine/Issue.lean ====
section
/-! DEFINITION. Machine/Issue.lean: what becomes of one issued command word (20_memory.md R51, R52, 60_exceptions.md
R223). -/

namespace Sys2Proof.Machine

/-- The state in which an issued command runs: its action taken from the list, its IN presented. -/
def issued (bytes : List Byte) (rest : List HostAction) (s : State) : State := present bytes (popAction rest s)

/-- One issued command: refused when IN is longer than BUF_MAX (R52); otherwise the word is tested first, and only a
legal one reaches its command (R223). -/
def runCommand (w : Word) (bytes : List Byte) (rest : List HostAction) (s : State) :
    Host.Outcome State Fault Refusal :=
  if admitsInput s bytes then
    match decode w with
    | .instr i => exec i (issued bytes rest s)
    | .illegal _ => .next (illegalWord (issued bytes rest s))
  else .refused .inputTooLong

end Sys2Proof.Machine
end

