-- ==== Sys2Proof/Machine/Step.lean ====
section
/-! DEFINITION. Machine/Step.lean: one step is one host action (60_exceptions.md R228). There is no program counter and
no fetch from a memory (10_state.md R20, 20_memory.md R62): the next command is what the host issues next (R227). -/

namespace Sys2Proof.Machine

/-- One step. With no action pending the block waits (70_reset_and_hazards.md R252). -/
def step (s : State) : Host.Outcome State Fault Refusal :=
  match s.pending with
  | [] => .next s
  | .command w bytes :: rest => runCommand w bytes rest s
  | .readReg n :: rest => readPort n (popAction rest s)
  | .reset :: rest => .next (hostReset (popAction rest s))

/-- The host's next action is to issue this word, with the bytes standing at `input` as its IN (none between commands):
how a program reaches the block (log 6). -/
def State.withFetchWord (s : State) (nbits w : Nat) : State :=
  { s with pending := .command (BitVec.ofNat 32 (w % 2 ^ nbits)) s.input :: s.pending }

end Sys2Proof.Machine
end

