-- ==== Sys2Proof/Machine/Assembler.lean ====
section
/-! DEFINITION. Machine/Assembler.lean: the assembler's lines and pseudo-instructions (30_encoding.md R78, R79): as
structured terms, the host actions they stand for, and the reading of a line's characters (log 11 says what the rule
leaves open of these). It is notation, no part of the block. -/

namespace Sys2Proof.Machine

/-- One assembler line (R78), the pseudo-instructions of R79 included. -/
inductive AsmLine where
  | senc
  | sencw
  | sdec
  /-- `crc16 <seed16>`, or `crc16` with no operand. -/
  | crc16 (seed : Option Half)
  | dfufrm
  | wrcfg (field : CfgField) (value : Byte)
  /-- `cfg <d>, <e>, <ds>, <es>`. -/
  | cfg (d e ds es : Byte)
  /-- `cfg.kiss`. -/
  | cfgKiss
  /-- `cfg.slip`. -/
  | cfgSlip
  /-- `read STATUS`, `read RESULT`, `read SEQ`, `read CFG`: no command word. -/
  | read (reg : PortReg)
deriving DecidableEq, Repr

/-- The four WRCFGs of `cfg`, in this order (R79). -/
def cfgExpansion (c : Cfg) : List Instr :=
  [.wrcfg .delim c.delim, .wrcfg .esc c.esc, .wrcfg .dsub c.dsub, .wrcfg .esub c.esub]

/-- The commands a line expands to (R78, R79); a read is none. -/
def expandLine : AsmLine → List Instr
  | .senc => [.senc]
  | .sencw => [.sencw]
  | .sdec => [.sdec]
  | .crc16 (some seed) => [.crc16 seed]
  | .crc16 none => [.crc16 0xFFFF]
  | .dfufrm => [.dfufrm]
  | .wrcfg f v => [.wrcfg f v]
  | .cfg d e ds es => cfgExpansion ⟨d, e, ds, es⟩
  | .cfgKiss => cfgExpansion ⟨0xC0, 0xDB, 0xDC, 0xDD⟩
  | .cfgSlip => cfgExpansion ⟨0xC0, 0xDB, 0xDC, 0xDD⟩
  | .read _ => []

/-- The port number of a register (43_control.md R202). -/
def numberOfPort : PortReg → Nat
  | .status => 0
  | .result => 1
  | .seq => 2
  | .cfg => 3

/-- What the host does for a line written with `IN = bytes` (R78): its words in order, or a register read. -/
def lineActions (line : AsmLine) (bytes : List Byte) : List HostAction :=
  match line with
  | .read r => [.readReg (numberOfPort r)]
  | l => (expandLine l).map (fun i => .command (encode i) bytes)

/-! The characters of a line -/

/-- What a line is made of: words, and the marks between them. -/
inductive AsmToken where
  | word (chars : List Char)
  | comma
  | equals
  | listBegin
  | listEnd
deriving DecidableEq, Repr

/-- A word that is complete, if there is one. -/
def wordToken : List Char → List AsmToken
  | [] => []
  | c :: cs => [.word (c :: cs)]

/-- The token of a mark. -/
def markToken (c : Char) : Option AsmToken :=
  if c = ',' then some .comma
  else if c = '=' then some .equals
  else if c = '[' then some .listBegin
  else if c = ']' then some .listEnd
  else none

/-- The tokens of a line; a comment begins with a semicolon (R78). -/
def tokenize : List Char → List Char → List AsmToken
  | word, [] => wordToken word
  | word, c :: cs =>
    if c = ';' then wordToken word
    else if c = ' ' ∨ c = '\t' then wordToken word ++ tokenize [] cs
    else
      match markToken c with
      | some m => wordToken word ++ m :: tokenize [] cs
      | none => tokenize (word ++ [c]) cs

/-- A hexadecimal digit, of either case. -/
def hexDigit (c : Char) : Option Nat :=
  if '0' ≤ c ∧ c ≤ '9' then some (c.toNat - '0'.toNat)
  else if 'a' ≤ c ∧ c ≤ 'f' then some (c.toNat - 'a'.toNat + 10)
  else if 'A' ≤ c ∧ c ≤ 'F' then some (c.toNat - 'A'.toNat + 10)
  else none

/-- The digits of a number after a value already read. -/
def hexDigits : Nat → List Char → Option Nat
  | v, [] => some v
  | v, c :: cs =>
    match hexDigit c with
    | some d => hexDigits (16 * v + d) cs
    | none => none

/-- An operand `0x...`. How many digits it has the rule leaves open: here one or more, zeros in front allowed, and only
its value must fit the operand's width (`operandByte`, `operandHalf`). DESIGN CHOICE (log 11). -/
def operandValue : List Char → Option Nat
  | '0' :: 'x' :: c :: cs => hexDigits 0 (c :: cs)
  | _ => none

/-- An 8-bit operand. -/
def operandByte (cs : List Char) : Option Byte :=
  match operandValue cs with
  | some v => if v < 256 then some (BitVec.ofNat 8 v) else none
  | none => none

/-- A 16-bit operand. -/
def operandHalf (cs : List Char) : Option Half :=
  match operandValue cs with
  | some v => if v < 65536 then some (BitVec.ofNat 16 v) else none
  | none => none

/-- A byte of IN: two hexadecimal digits (R78). -/
def inputByte : List Char → Option Byte
  | [a, b] =>
    match hexDigits 0 [a, b] with
    | some v => some (BitVec.ofNat 8 v)
    | none => none
  | _ => none

/-- The name of a CFG field (R78). -/
def fieldOfName (cs : List Char) : Option CfgField :=
  if cs = ['d', 'e', 'l', 'i', 'm'] then some .delim
  else if cs = ['e', 's', 'c'] then some .esc
  else if cs = ['d', 's', 'u', 'b'] then some .dsub
  else if cs = ['e', 's', 'u', 'b'] then some .esub
  else none

/-- The name of a register after `read` (R78). -/
def regOfName (cs : List Char) : Option PortReg :=
  if cs = ['S', 'T', 'A', 'T', 'U', 'S'] then some .status
  else if cs = ['R', 'E', 'S', 'U', 'L', 'T'] then some .result
  else if cs = ['S', 'E', 'Q'] then some .seq
  else if cs = ['C', 'F', 'G'] then some .cfg
  else none

/-- A line that is one word (R78, R79). -/
def lineOfWord (cs : List Char) : Option AsmLine :=
  if cs = ['s', 'e', 'n', 'c'] then some .senc
  else if cs = ['s', 'e', 'n', 'c', 'w'] then some .sencw
  else if cs = ['s', 'd', 'e', 'c'] then some .sdec
  else if cs = ['c', 'r', 'c', '1', '6'] then some (.crc16 none)
  else if cs = ['d', 'f', 'u', 'f', 'r', 'm'] then some .dfufrm
  else if cs = ['c', 'f', 'g', '.', 'k', 'i', 's', 's'] then some .cfgKiss
  else if cs = ['c', 'f', 'g', '.', 's', 'l', 'i', 'p'] then some .cfgSlip
  else none

/-- A line of a mnemonic and one operand: `crc16 <seed16>`, `read <register>` (R78). -/
def lineOfOne (m a : List Char) : Option AsmLine :=
  if m = ['c', 'r', 'c', '1', '6'] then (operandHalf a).map (fun v => .crc16 (some v))
  else if m = ['r', 'e', 'a', 'd'] then (regOfName a).map .read
  else none

/-- A line `wrcfg <field>, <val8>` (R78). -/
def lineOfTwo (m a b : List Char) : Option AsmLine :=
  if m = ['w', 'r', 'c', 'f', 'g'] then
    match fieldOfName a, operandByte b with
    | some f, some v => some (.wrcfg f v)
    | _, _ => none
  else none

/-- A line `cfg <d>, <e>, <ds>, <es>` (R79). -/
def lineOfFour (m a b c d : List Char) : Option AsmLine :=
  if m = ['c', 'f', 'g'] then
    match operandByte a, operandByte b, operandByte c, operandByte d with
    | some v, some w, some x, some y => some (.cfg v w x y)
    | _, _, _, _ => none
  else none

/-- The bytes of a list after its opening bracket; nothing follows the closing one. -/
def inputBytes : List AsmToken → Option (List Byte)
  | [.listEnd] => some []
  | [.word w, .listEnd] => (inputByte w).map (fun b => [b])
  | .word w :: .comma :: .word x :: rest =>
    match inputByte w, inputBytes (.word x :: rest) with
    | some b, some bs => some (b :: bs)
    | _, _ => none
  | _ => none

/-- What stands after a line's operands: `IN = [b0, b1, ...]`, or nothing, which is an empty IN (R78). -/
def inputPart : List AsmToken → Option (List Byte)
  | [] => some []
  | .word ['I', 'N'] :: .equals :: .listBegin :: rest => inputBytes rest
  | _ => none

/-- A line and its input part, when both are read. A register read is no command word (R78) and takes no input part: a
line that gives it one is ill-formed. DESIGN CHOICE (log 11). -/
def withInput (line : Option AsmLine) (rest : List AsmToken) : Option (AsmLine × List Byte) :=
  match line, inputPart rest with
  | some (.read r), some _ => if rest.isEmpty then some (.read r, []) else none
  | some l, some bs => some (l, bs)
  | _, _ => none

/-- A line from its tokens (R78, R79), the longest operand list first. -/
def parseTokens : List AsmToken → Option (AsmLine × List Byte)
  | .word m :: .word a :: .comma :: .word b :: .comma :: .word c :: .comma :: .word d :: rest =>
    withInput (lineOfFour m a b c d) rest
  | .word m :: .word a :: .comma :: .word b :: rest => withInput (lineOfTwo m a b) rest
  | .word m :: .word ['I', 'N'] :: rest => withInput (lineOfWord m) (.word ['I', 'N'] :: rest)
  | .word m :: .word a :: rest => withInput (lineOfOne m a) rest
  | .word m :: rest => withInput (lineOfWord m) rest
  | _ => none

/-- A line and its IN, read from the line's characters; none where there is no command, pseudo-instruction or read to
be found, a line that is blank or only a comment among them (what such a line does: `assembleLine`). -/
def parseLine (chars : List Char) : Option (AsmLine × List Byte) := parseTokens (tokenize [] chars)

/-- What the host does for a line of characters; none for an ill-formed line. A line that is blank or holds only a
comment, as the programs of 95_test_vectors.md have, is well-formed and gives no action. DESIGN CHOICE, since R78 does
not say what such a line is (log 11). -/
def assembleLine (chars : List Char) : Option (List HostAction) :=
  match tokenize [] chars with
  | [] => some []
  | token :: rest => (parseTokens (token :: rest)).map (fun read => lineActions read.1 read.2)

/-- What the host does for a program, line after line (R78); none where one of its lines is ill-formed. -/
def assemble : List (List Char) → Option (List HostAction)
  | [] => some []
  | line :: lines =>
    match assembleLine line, assemble lines with
    | some acts, some rest => some (acts ++ rest)
    | _, _ => none

end Sys2Proof.Machine
end

