-- ==== Sys2Proof/Machine/Session.lean ====
section
/-! DEFINITION. Machine/Session.lean: what a host puts into DFUFRM in a DFU session (42_dfu_frame.md R185 to R191). It
is no part of the block, which neither checks nor interprets a payload; it is here so that claims about a session can
be said. The waits between frames (70_reset_and_hazards.md R266) are real time and left out (00_scope.md R6 item 1). -/

namespace Sys2Proof.Machine

/-- The DFU packet types (R185). -/
inductive DfuPacket where
  | init
  | start
  | data
  | stopData
deriving DecidableEq, Repr

/-- The number of a packet type (R185). -/
def dfuPacketCode : DfuPacket → Word
  | .init => 1
  | .start => 3
  | .data => 4
  | .stopData => 5

/-- The tag at the start of a payload, 4 bytes little-endian (R186; log 10). -/
def dfuTag (p : DfuPacket) : List Byte := le32 (dfuPacketCode p)

/-- The image-size packet: softdevice, bootloader and application size (R187). -/
def imageSizes (softdevice bootloader app : Word) : List Byte := le32 softdevice ++ le32 bootloader ++ le32 app

/-- The Start payload (R187). -/
def startPayload (mode softdevice bootloader app : Word) : List Byte :=
  dfuTag .start ++ le32 mode ++ imageSizes softdevice bootloader app

/-- The Init payload (R188). -/
def initPayload (initPacket : List Byte) : List Byte := dfuTag .init ++ initPacket ++ [0x00, 0x00]

/-- A Data payload (R189). -/
def dataPayload (chunk : List Byte) : List Byte := dfuTag .data ++ chunk

/-- The StopData payload: the tag alone (R190). -/
def stopPayload : List Byte := dfuTag .stopData

/-- At most so many chunks of at most 512 bytes. -/
def chunksUpTo : Nat → List Byte → List (List Byte)
  | 0, _ => []
  | _ + 1, [] => []
  | k + 1, b :: bs => (b :: bs).take 512 :: chunksUpTo k ((b :: bs).drop 512)

/-- The firmware in chunks of at most 512 bytes (R189). -/
def firmwareChunks (firmware : List Byte) : List (List Byte) := chunksUpTo firmware.length firmware

/-- The program mode a host is asked for: Application, the only one supported, or another (R187, R191). -/
inductive ProgramMode where
  | application
  | other
deriving DecidableEq, Repr

/-- The payloads of an application-only session in the order R191 gives; the sizes of softdevice and bootloader are 0
(R187). The init packet may have any length, since the spec gives no bound for it (R188); one of more than 4089 bytes
makes the Init payload longer than 4095 bytes, and its DFUFRM ends in ErrLen. DESIGN CHOICE (log 14). -/
def sessionPayloads (initPacket firmware : List Byte) : List (List Byte) :=
  startPayload Config.appMode 0 0 (BitVec.ofNat 32 firmware.length) :: initPayload initPacket ::
    ((firmwareChunks firmware).map dataPayload ++ [stopPayload])

/-- The host's actions in a session: reset first (70_reset_and_hazards.md R253), then one DFUFRM a payload; none at all,
UnsupportedOperation, for a mode other than Application (R191). -/
def sessionActions (mode : ProgramMode) (initPacket firmware : List Byte) : Option (List HostAction) :=
  match mode with
  | .other => none
  | .application =>
    some (.reset :: (sessionPayloads initPacket firmware).map (fun p => .command (encode .dfufrm) p))

/-- The host's operations around a firmware image (R191): flashing it, and `validate` and `activate`. -/
inductive HostOperation where
  | flash (mode : ProgramMode) (initPacket firmware : List Byte)
  | validate
  | activate
deriving DecidableEq, Repr

/-- What the host does to the block for an operation: `validate` and `activate` issue no DFUFRM and nothing else, and
neither does flashing in a mode other than Application (R191). What the host reports of them is not the block's
(60_exceptions.md R225; log 13). -/
def operationActions : HostOperation → List HostAction
  | .flash mode initPacket firmware => (sessionActions mode initPacket firmware).getD []
  | .validate => []
  | .activate => []

end Sys2Proof.Machine
end

