-- ==== Sys2Proof/Safety.lean ====
section
/-! DEFINITION. Safety.lean: what is true of the machine between commands, in the terms the statements use: STATUS holds
only values the block writes (10_state.md R26, 60_exceptions.md R223), IN is gone (10_state.md R33), and after an error
nothing was put out or read (60_exceptions.md R221). -/

namespace Sys2Proof.Machine

/-- STATUS is the value of one of the three errors (60_exceptions.md R220). -/
def isErrorStatus (v : Half) : Bool := v == 0x0001 || v == 0x0002 || v == 0x0004

/-- STATUS holds DEC bits only: bits 7:4 (10_state.md R26). -/
def isDecStatus (v : Half) : Bool := v &&& 0xFF0F == 0

/-- The STATUS values the rules allow: an error's value alone, or DEC bits alone, of which TERM and TRAILESC exclude
each other (R26, R223, 40_stuffing.md R108). -/
def statusAllowed (v : Half) : Bool := isErrorStatus v || (isDecStatus v && !(decTermBit v && decTrailescBit v))

/-- What holds before and after each step. -/
structure Settled (s : State) : Prop where
  /-- STATUS is one of the values the block writes. -/
  status : statusAllowed s.status = true
  /-- No byte of IN is kept. -/
  inputGone : s.input = []
  /-- An error has put nothing out and read nothing. -/
  errorSilent : isErrorStatus s.status = true → s.output = [] ∧ s.consumed = 0

end Sys2Proof.Machine
end

