-- ==== Sys2Proof/Certificates/Slice0/Obligations.lean ====
section
/-! DEFINITION. Certificates/Slice0/Obligations.lean: the statements for the provers, each about the machine for every
state, word and input. Before them stand the spec's own pseudocode and conditions in the spec's form (the loop of R101,
the sub-steps of R140 on unbounded numbers, the polynomial step of R143, the legality of R75), so that a statement holds
the model against the rule's text and not against the model's own definition. -/

open Sys2Proof Sys2Proof.Machine

/-! The spec's conditions and pseudocode -/

/-- `CmdLegal(w)` as R75 writes it. -/
abbrev Sys2Proof.Machine.WordLegal (w : Word) : Prop :=
  ((w.extractLsb' 0 8 = 0x01#8 ∨ w.extractLsb' 0 8 = 0x02#8 ∨ w.extractLsb' 0 8 = 0x03#8 ∨ w.extractLsb' 0 8 = 0x05#8) ∧
      w.extractLsb' 8 8 = 0#8 ∧ w.extractLsb' 16 16 = 0#16) ∨
  (w.extractLsb' 0 8 = 0x04#8 ∧ w.extractLsb' 8 8 = 0#8) ∨
  (w.extractLsb' 0 8 = 0x06#8 ∧ (w.extractLsb' 8 8).toNat ≤ 3 ∧ w.extractLsb' 24 8 = 0#8)

/-- `CfgLegal(CFG)` as R25 writes it. -/
abbrev Sys2Proof.Machine.CfgIsLegal (c : Cfg) : Prop := c.delim ≠ c.esc ∧ c.dsub ≠ c.esub

/-- `StuffEnc` of R100, one byte's replacement after the other. -/
def Sys2Proof.Machine.stuffedR100 (c : Cfg) (x : List Byte) : List Byte :=
  x.flatMap (fun b =>
    if b = c.delim then [c.esc, c.dsub] else if b = c.esc then [c.esc, c.esub] else [b])

/-- The variables of the loop of R101. -/
structure Sys2Proof.Machine.LoopR101 where
  r : List Byte
  escaping : Bool
  term : Bool
  badesc : Bool
  i : Nat

/-- The `while` loop of R101 on the bytes `s[i..]`. -/
def Sys2Proof.Machine.runLoopR101 (c : Cfg) : List Byte → LoopR101 → LoopR101
  | [], q => q
  | b :: bs, q =>
    if q.escaping then
      if b = c.dsub then runLoopR101 c bs { q with i := q.i + 1, r := q.r ++ [c.delim], escaping := false }
      else if b = c.esub then runLoopR101 c bs { q with i := q.i + 1, r := q.r ++ [c.esc], escaping := false }
      else runLoopR101 c bs { q with i := q.i + 1, badesc := true, escaping := false }
    else if b = c.esc then runLoopR101 c bs { q with i := q.i + 1, escaping := true }
    else if b = c.delim then { q with i := q.i + 1, term := true }
    else runLoopR101 c bs { q with i := q.i + 1, r := q.r ++ [b] }

/-- `nolead` of R101: IN is not empty and its first byte is not the delimiter. -/
def Sys2Proof.Machine.noleadR101 (c : Cfg) (x : List Byte) : Bool :=
  match x with
  | [] => false
  | b :: _ => b != c.delim

/-- R101 from its first line to the end of its loop. -/
def Sys2Proof.Machine.decodedR101 (c : Cfg) (x : List Byte) : LoopR101 :=
  match x with
  | [] => ⟨[], false, false, false, 0⟩
  | b :: bs =>
    if b = c.delim then runLoopR101 c bs ⟨[], false, false, false, 1⟩
    else runLoopR101 c (b :: bs) ⟨[], false, false, false, 0⟩

/-- One bit of a STATUS value as R104 shifts it. -/
def Sys2Proof.Machine.bitR104 (b : Bool) (place : Nat) : Nat := b.toNat <<< place

/-- STATUS as R104 composes it; trailesc is R101's last line. -/
def Sys2Proof.Machine.statusR104 (c : Cfg) (x : List Byte) : Half :=
  let q := decodedR101 c x
  BitVec.ofNat 16 (bitR104 (noleadR101 c x) 7 ||| bitR104 q.escaping 6 ||| bitR104 q.badesc 5 ||| bitR104 q.term 4)

/-- `CrcStep` of R140 on unbounded unsigned numbers, truncated where R140 truncates. -/
def Sys2Proof.Machine.crcStepR140 (reg b : Nat) : Nat :=
  let reg := ((reg >>> 8) &&& 0x00FF) ||| ((reg <<< 8) &&& 0xFF00)
  let reg := reg ^^^ b
  let reg := reg ^^^ ((reg &&& 0x00FF) >>> 4)
  let reg := (reg ^^^ ((reg <<< 8) <<< 4)) % 65536
  (reg ^^^ (((reg &&& 0x00FF) <<< 4) <<< 1)) % 65536

/-- The same sub-steps with one truncation, at the end (R146). -/
def Sys2Proof.Machine.crcStepR146 (reg b : Nat) : Nat :=
  let reg := ((reg >>> 8) &&& 0x00FF) ||| ((reg <<< 8) &&& 0xFF00)
  let reg := reg ^^^ b
  let reg := reg ^^^ ((reg &&& 0x00FF) >>> 4)
  let reg := reg ^^^ ((reg <<< 8) <<< 4)
  (reg ^^^ (((reg &&& 0x00FF) <<< 4) <<< 1)) % 65536

/-- `Crc16(s, seed)` of R141 over `crcStepR140`. -/
def Sys2Proof.Machine.crcR141 (x : List Byte) (seed : Half) : Half :=
  BitVec.ofNat 16 ((x.foldl (fun reg b => crcStepR140 reg b.toNat) seed.toNat) % 65536)

/-- One of the eight shifts of `PolyStep` (R143). -/
def Sys2Proof.Machine.polyShiftR143 (reg : Half) : Half :=
  if reg &&& 0x8000#16 ≠ 0#16 then (reg <<< 1) ^^^ 0x1021#16 else reg <<< 1

/-- `PolyStep`, the MSB-first CRC step with polynomial 0x1021 (R143). -/
def Sys2Proof.Machine.polyStepR143 (reg : Half) (b : Byte) : Half :=
  (List.range 8).foldl (fun r _ => polyShiftR143 r) (reg ^^^ (b.setWidth 16 <<< 8))

/-- h0 to h3 by the formulas of R163 to R166, from the new SEQ and the payload's length. -/
def Sys2Proof.Machine.headerR160 (s len : Nat) : List Nat :=
  let h0 := s ||| (((s + 1) % 8) <<< 3) ||| (1 <<< 6) ||| (1 <<< 7)
  let h1 := 14 ||| ((len &&& 0xF) <<< 4)
  let h2 := (len &&& 0xFF0) >>> 4
  [h0, h1, h2, (256 - ((h0 + h1 + h2) % 256)) % 256]

/-- The body of R160: header, payload, and the CRC of both, low byte first. -/
def Sys2Proof.Machine.bodyR160 (s : BitVec 3) (payload : List Byte) : List Byte :=
  let covered := (headerR160 s.toNat payload.length).map (BitVec.ofNat 8) ++ payload
  let c := crcR141 covered 0xFFFF#16
  covered ++ [c.extractLsb' 0 8, c.extractLsb' 8 8]

/-! Encoding -/

/-- R71, R75, R78: each command comes back from its word, with every operand at every value. -/
def Obligations.DecodeEncodeAgree : Prop :=
  ∀ i : Instr, decode (encode i) = .instr i

/-- R70, R75, R77: a word that decodes to a command is that command's word; no bit is dropped. -/
def Obligations.EncodeDecodeAgree : Prop :=
  ∀ (w : Word) (i : Instr), decode w = .instr i → encode i = w

/-- R75: the decoder accepts the legal words and no other, in both forms of the rule (fields; match and mask). -/
def Obligations.LegalWordsAreThoseOfR75 : Prop :=
  ∀ w : Word,
    ((∃ i, decode w = .instr i) ↔ WordLegal w) ∧
    (WordLegal w ↔
      (w &&& 0xFFFFFFFF#32 = 0x00000001#32 ∨ w &&& 0xFFFFFFFF#32 = 0x00000002#32 ∨
       w &&& 0xFFFFFFFF#32 = 0x00000003#32 ∨ w &&& 0x0000FFFF#32 = 0x00000004#32 ∨
       w &&& 0xFFFFFFFF#32 = 0x00000005#32 ∨ w &&& 0xFF00FCFF#32 = 0x00000006#32))

/-- R71, R75: the well-formedness check on a word's three fields accepts exactly the words the decoder accepts. -/
def Obligations.FieldCheckAgreesWithDecoder : Prop :=
  ∀ w : Word, (fieldsOf w).legal = true ↔ ∃ i, decode w = .instr i

/-- R77: the rows do not overlap, and every word is of the row of the one command it decodes to, or of no row and
Illegal. -/
def Obligations.EveryWordDecodesToOneRowOrIllegal : Prop :=
  (∀ (w : Word) (r r' : OpcodeRow), r ∈ opcodeRows → r' ∈ opcodeRows →
      r.matchesWord w = true → r'.matchesWord w = true → r = r') ∧
  (∀ w : Word,
    (∃ i, decode w = .instr i ∧ ∃ r ∈ opcodeRows, r.matchesWord w = true ∧ r.mnemonic = mnemonicOf i) ∨
    ((∃ why, decode w = .illegal why) ∧ ∀ r ∈ opcodeRows, r.matchesWord w = false))

/-- R80: the rule's encoding examples and its illegal words. -/
def Obligations.EncodingExamplesOfR80 : Prop :=
  (encode (.crc16 0x1D0F) = 0x1D0F0004#32 ∧ encode (.crc16 0x0000) = 0x00000004#32 ∧
   encode (.wrcfg .delim 0x7E) = 0x007E0006#32 ∧ encode (.wrcfg .esc 0x7D) = 0x007D0106#32 ∧
   encode (.wrcfg .dsub 0x5E) = 0x005E0206#32 ∧ encode (.wrcfg .esub 0x5D) = 0x005D0306#32) ∧
  (decode 0x1D0F0004#32 = .instr (.crc16 0x1D0F) ∧ decode 0x00000004#32 = .instr (.crc16 0x0000) ∧
   decode 0x007E0006#32 = .instr (.wrcfg .delim 0x7E) ∧ decode 0x007D0106#32 = .instr (.wrcfg .esc 0x7D) ∧
   decode 0x005E0206#32 = .instr (.wrcfg .dsub 0x5E) ∧ decode 0x005D0306#32 = .instr (.wrcfg .esub 0x5D)) ∧
  (∀ w ∈ [0x00000000#32, 0x00000007#32, 0x00000101#32, 0x00010005#32, 0x00000406#32, 0x01000006#32, 0x00000104#32],
    ∀ i, decode w ≠ .instr i)

/-! The step -/

/-- R60, R228: when the next host action issues a word that decodes to i, with an IN that is admitted, the step is exec
of i with that IN presented, OUT empty and the action taken. -/
def Obligations.StepRunsDecodedCommand : Prop :=
  ∀ (s : State) (w : Word) (bytes : List Byte) (rest : List HostAction) (i : Instr),
    s.pending = .command w bytes :: rest → admitsInput s bytes = true → decode w = .instr i →
    step s = exec i { s with pending := rest, input := bytes, output := [], consumed := 0 }

/-- R76: every word that is not legal changes no register but STATUS, which becomes 0x0001, emits nothing and reads no
IN; the all-zero word is one. -/
def Obligations.IllegalWordRaisesErrIllegal : Prop :=
  (¬ WordLegal 0x00000000#32) ∧
  ∀ (s : State) (w : Word) (bytes : List Byte) (rest : List HostAction),
    s.pending = .command w bytes :: rest → admitsInput s bytes = true → ¬ WordLegal w →
    step s = .next { s with pending := rest, status := 0x0001#16, output := [], consumed := 0, input := [] }

/-- R52: an issue with an IN longer than BUF_MAX has no step, whatever the word; with BUF_MAX unbounded every finite IN
is admitted. -/
def Obligations.IssueBeyondBufMaxHasNoStep : Prop :=
  ∀ (s : State) (w : Word) (bytes : List Byte) (rest : List HostAction),
    s.pending = .command w bytes :: rest →
    (∀ n, s.bufMax = some n → n < bytes.length → step s = .refused .inputTooLong) ∧
    (s.bufMax = none → ∃ t, step s = .next t)

/-- R202, R203, R205: what a register read returns for each number, and that it changes nothing else. -/
def Obligations.RegisterPortReads : Prop :=
  (∀ (s : State) (n : Nat) (rest : List HostAction), s.pending = .readReg n :: rest →
    (n = 0 → step s = .next { s with pending := rest, readData := some (s.status.setWidth 32) }) ∧
    (n = 1 → ∀ v, s.result = some v →
      step s = .next { s with pending := rest, readData := some (v.setWidth 32) }) ∧
    (n = 1 → s.result = none → step s = .refused .resultHasNoValue) ∧
    (n = 2 → step s = .next { s with pending := rest, readData := some (s.seq.setWidth 32) }) ∧
    (n = 3 → step s = .next { s with
        pending := rest,
        readData := some (s.cfg.delim.setWidth 32 ||| (s.cfg.esc.setWidth 32 <<< 8) |||
          (s.cfg.dsub.setWidth 32 <<< 16) ||| (s.cfg.esub.setWidth 32 <<< 24)) }) ∧
    (3 < n → step s = .refused (.noSuchPort n))) ∧
  portValue State.reset .cfg = some 0xDDDCDBC0#32

/-- R204: while no CRC16 has completed since reset, and whatever else the host did, a read of RESULT is refused; once
RESULT holds a value, it reads that value until the next CRC16 or reset. -/
def Obligations.ResultReadsLastChecksum : Prop :=
  (∀ (s t : State) (acts rest : List HostAction),
    s.pending = acts ++ .readReg 1 :: rest → s.result = none →
    (∀ w bytes, HostAction.command w bytes ∈ acts → ∀ seed, w ≠ encode (.crc16 seed)) →
    core.run acts.length s = .next t → step t = .refused .resultHasNoValue) ∧
  (∀ (s t u : State) (seed : Half) (bytes : List Byte) (acts rest : List HostAction),
    s.pending = .command (encode (.crc16 seed)) bytes :: (acts ++ .readReg 1 :: rest) →
    (∀ w b, HostAction.command w b ∈ acts → ∀ seed', w ≠ encode (.crc16 seed')) → HostAction.reset ∉ acts →
    step s = .next t → core.run acts.length t = .next u →
    ∃ v, step u = .next v ∧ v.readData = some ((crcR141 bytes seed).setWidth 32))

/-- R24, R28, R35, R250: reset from any state gives every register its reset value and no OUT and keeps no IN, and the
machine right after reset has the same values. The host's coming actions go on after it. -/
def Obligations.ResetSetsEveryRegister : Prop :=
  (∀ (s : State) (rest : List HostAction), s.pending = .reset :: rest →
    ∃ t, step s = .next t ∧ t.seq = 0 ∧ t.cfg = ⟨0xC0, 0xDB, 0xDC, 0xDD⟩ ∧ t.status = 0x0000 ∧ t.result = none ∧
      t.output = [] ∧ t.input = [] ∧ t.pending = rest ∧ portValue t .cfg = some 0xDDDCDBC0#32) ∧
  (State.reset.seq = 0 ∧ State.reset.cfg = ⟨0xC0, 0xDB, 0xDC, 0xDD⟩ ∧ State.reset.status = 0x0000 ∧
   State.reset.result = none ∧ State.reset.output = [] ∧ State.reset.input = [])

/-- R252: with no host action to perform the block waits, and nothing changes (the model's form of waiting, log 1). -/
def Obligations.BlockWaitsForTheHost : Prop :=
  ∀ s : State, s.pending = [] → step s = .next s

/-- R231: the model has no step in three cases and in no other: so every command that can be issued completes. -/
def Obligations.NoStepOnlyForThreeHostActions : Prop :=
  ∀ s : State,
    (∃ t, step s = .next t) ↔
    ¬ ((∃ w bytes rest n, s.pending = .command w bytes :: rest ∧ s.bufMax = some n ∧ n < bytes.length) ∨
       (∃ n rest, s.pending = .readReg n :: rest ∧ 3 < n) ∨
       (∃ rest, s.pending = .readReg 1 :: rest ∧ s.result = none))

/-! Byte stuffing -/

/-- R100, R102: SENC's word, its result under a legal CFG, and ErrCfg under an illegal one. -/
def Obligations.SencCommand : Prop :=
  (∀ w : Word, decode w = .instr .senc ↔ w = 0x00000001#32) ∧
  ∀ s : State,
    (CfgIsLegal s.cfg → exec .senc s = .next { s with
      output := stuffedR100 s.cfg s.input, status := 0x0000, consumed := s.input.length, input := [] }) ∧
    (¬ CfgIsLegal s.cfg → exec .senc s = .next { s with output := [], status := 0x0002, consumed := 0, input := [] })

/-- R103: SENCW's word, its result under a legal CFG, and ErrCfg under an illegal one. -/
def Obligations.SencwCommand : Prop :=
  (∀ w : Word, decode w = .instr .sencw ↔ w = 0x00000002#32) ∧
  ∀ s : State,
    (CfgIsLegal s.cfg → exec .sencw s = .next { s with
      output := [s.cfg.delim] ++ stuffedR100 s.cfg s.input ++ [s.cfg.delim], status := 0x0000,
      consumed := s.input.length, input := [] }) ∧
    (¬ CfgIsLegal s.cfg → exec .sencw s = .next { s with output := [], status := 0x0002, consumed := 0, input := [] })

/-- R101, R104, R109: SDEC's word, its result by the spec's loop under a legal CFG, and ErrCfg under an illegal one. -/
def Obligations.SdecFollowsTheLoop : Prop :=
  (∀ w : Word, decode w = .instr .sdec ↔ w = 0x00000003#32) ∧
  ∀ s : State,
    (CfgIsLegal s.cfg → exec .sdec s = .next { s with
      output := (decodedR101 s.cfg s.input).r, status := statusR104 s.cfg s.input,
      consumed := (decodedR101 s.cfg s.input).i, input := [] }) ∧
    (¬ CfgIsLegal s.cfg → exec .sdec s = .next { s with output := [], status := 0x0002, consumed := 0, input := [] })

/-- R115: the three stuffing words under an illegal CFG; a word that is not legal is ErrIllegal there too, since the
word is tested first. -/
def Obligations.IllegalCfgRaisesErrCfg : Prop :=
  ∀ (s : State) (w : Word) (bytes : List Byte) (rest : List HostAction),
    s.pending = .command w bytes :: rest → admitsInput s bytes = true → ¬ CfgIsLegal s.cfg →
    ((w = 0x00000001#32 ∨ w = 0x00000002#32 ∨ w = 0x00000003#32) →
      step s = .next { s with pending := rest, status := 0x0002, output := [], consumed := 0, input := [] }) ∧
    (¬ WordLegal w →
      step s = .next { s with pending := rest, status := 0x0001, output := [], consumed := 0, input := [] })

/-- R105, R107: the byte after an unescaped escape byte. The bytes p before the pair leave the decoder unescaped and not
at the end of a frame, or there are none and the pair begins IN; what follows the pair is decoded as after a stripped
delimiter. -/
def Obligations.EscapedByteIsMappedOrDropped : Prop :=
  ∀ (s u : State) (ys : List Byte) (b : Byte), CfgIsLegal s.cfg →
    exec .sdec { s with input := s.cfg.delim :: ys } = .next u →
    (∀ (t : State) (p : List Byte), p ≠ [] → exec .sdec { s with input := p } = .next t →
      decTermBit t.status = false → decTrailescBit t.status = false →
      ∃ v, exec .sdec { s with input := p ++ s.cfg.esc :: b :: ys } = .next v ∧
        (b = s.cfg.dsub → v.output = t.output ++ s.cfg.delim :: u.output ∧ v.status = t.status ||| u.status) ∧
        (b = s.cfg.esub → v.output = t.output ++ s.cfg.esc :: u.output ∧ v.status = t.status ||| u.status) ∧
        (b ≠ s.cfg.dsub → b ≠ s.cfg.esub →
          v.output = t.output ++ u.output ∧ v.status = t.status ||| u.status ||| 0x0020)) ∧
    (∃ v, exec .sdec { s with input := s.cfg.esc :: b :: ys } = .next v ∧
      (b = s.cfg.dsub → v.output = s.cfg.delim :: u.output ∧ v.status = 0x0080 ||| u.status) ∧
      (b = s.cfg.esub → v.output = s.cfg.esc :: u.output ∧ v.status = 0x0080 ||| u.status) ∧
      (b ≠ s.cfg.dsub → b ≠ s.cfg.esub → v.output = u.output ∧ v.status = 0x0080 ||| u.status ||| 0x0020))

/-- R106: at the first unescaped delimiter after the leading byte decoding stops, whatever follows; with none, all of IN
is read and DEC_TERM is 0: DEC_TERM is set only where such a delimiter stands after a q that leaves the decoder
unescaped and not at the end of a frame. -/
def Obligations.EndOfFrameStopsDecoding : Prop :=
  ∀ (s t : State) (p : List Byte), CfgIsLegal s.cfg → exec .sdec { s with input := p } = .next t →
    (decTermBit t.status = false → t.consumed = p.length) ∧
    (decTermBit t.status = true → ∃ q rest u, p = q ++ s.cfg.delim :: rest ∧ q ≠ [] ∧
      exec .sdec { s with input := q } = .next u ∧ decTermBit u.status = false ∧ decTrailescBit u.status = false) ∧
    (p ≠ [] → decTermBit t.status = false → decTrailescBit t.status = false → ∀ rest,
      exec .sdec { s with input := p ++ s.cfg.delim :: rest } = .next { t with
        status := t.status ||| 0x0010, consumed := p.length + 1 })

/-- R108: an IN that ends with an unescaped escape byte yields nothing for it and sets DEC_TRAILESC, also where that
byte is all of IN; nothing of it reaches the next SDEC. -/
def Obligations.TrailingEscapeIsReported : Prop :=
  ∀ s : State, CfgIsLegal s.cfg →
    (∀ (t : State) (p : List Byte), p ≠ [] → exec .sdec { s with input := p } = .next t →
      decTermBit t.status = false → decTrailescBit t.status = false →
      ∃ v, exec .sdec { s with input := p ++ [s.cfg.esc] } = .next v ∧
        v.output = t.output ∧ v.status = t.status ||| 0x0040 ∧
        ∀ x, exec .sdec { v with input := x } = exec .sdec { s with input := x }) ∧
    (∃ v, exec .sdec { s with input := [s.cfg.esc] } = .next v ∧ v.output = [] ∧ v.status = 0x00C0 ∧
      ∀ x, exec .sdec { v with input := x } = exec .sdec { s with input := x })

/-- R110: SDEC after SENC gives the bytes back, for every legal CFG and every byte sequence; the encoded bytes are escape
pairs and bytes that are neither d nor e, their first is e where IN's is d or e and IN's otherwise, and so never d. -/
def Obligations.DecodeUndoesEncode : Prop :=
  ∀ (s : State) (x : List Byte), CfgIsLegal s.cfg →
    ∃ t u, exec .senc { s with input := x } = .next t ∧ exec .sdec { t with input := t.output } = .next u ∧
      u.output = x ∧ u.status = (if x = [] then 0x0000#16 else 0x0080#16) ∧ t.output = stuffedR100 s.cfg x ∧
      t.output.head? = x.head?.map (fun b => if b = s.cfg.delim ∨ b = s.cfg.esc then s.cfg.esc else b) ∧
      t.output.head? ≠ some s.cfg.delim

/-- R111: SDEC after SENCW gives the bytes back and stops at the trailing delimiter. -/
def Obligations.DecodeUndoesFrame : Prop :=
  ∀ (s : State) (x : List Byte), CfgIsLegal s.cfg →
    ∃ t u, exec .sencw { s with input := x } = .next t ∧ exec .sdec { t with input := t.output } = .next u ∧
      u.output = x ∧ u.status = 0x0010#16

/-- R112: how long SENC's and SENCW's OUT are. -/
def Obligations.EncodedLength : Prop :=
  ∀ s : State, CfgIsLegal s.cfg →
    ∃ t u, exec .senc s = .next t ∧ exec .sencw s = .next u ∧
      t.output.length = s.input.length + s.input.countP (fun b => b == s.cfg.delim || b == s.cfg.esc) ∧
      u.output.length = t.output.length + 2

/-- R113: with substitutes that differ from the delimiter, the delimiter stands in OUT only as SENCW's first and last
byte; with one that equals it, the payload's encoding holds it, and SDEC still decodes it. -/
def Obligations.DelimiterOnlyAtFrameEnds : Prop :=
  ∀ s : State, CfgIsLegal s.cfg →
    ∃ t u, exec .senc s = .next t ∧ exec .sencw s = .next u ∧
      (s.cfg.dsub ≠ s.cfg.delim → s.cfg.esub ≠ s.cfg.delim →
        s.cfg.delim ∉ t.output ∧ u.output.count s.cfg.delim = 2 ∧
        u.output.head? = some s.cfg.delim ∧ u.output.getLast? = some s.cfg.delim) ∧
      (s.cfg.dsub = s.cfg.delim → s.cfg.delim ∈ s.input → s.cfg.delim ∈ t.output) ∧
      (s.cfg.esub = s.cfg.delim → s.cfg.esc ∈ s.input → s.cfg.delim ∈ t.output) ∧
      ∃ v, exec .sdec { u with input := u.output } = .next v ∧ v.output = s.input

/-- R53: OUT's bounds, that an error, CRC16 and WRCFG leave it empty, and that what stood in OUT before a command makes
no difference to it. -/
def Obligations.OutputBounds : Prop :=
  ∀ (i : Instr) (s t : State), exec i s = .next t →
    (∀ x, exec i { s with output := x } = .next t) ∧
    (t.status = 0x0001 ∨ t.status = 0x0002 ∨ t.status = 0x0004 → t.output = []) ∧
    (i = .senc → t.output.length ≤ 2 * s.input.length) ∧
    (i = .sencw → t.output.length ≤ 2 * s.input.length + 2) ∧
    (i = .sdec → t.output.length ≤ s.input.length) ∧
    (∀ seed, i = .crc16 seed → t.output = []) ∧
    (i = .dfufrm → t.output.length ≤ 2 * (s.input.length + 6) + 2) ∧
    (∀ f v, i = .wrcfg f v → t.output = [])

/-- R51: how far IN is read (through the model's field consumed, log 2): all of it by SENC, SENCW, CRC16 and DFUFRM that
end without error, none of it by WRCFG, and by SDEC up to and including the first unescaped delimiter or to its end,
what lies beyond making no difference. -/
def Obligations.HowFarInputIsRead : Prop :=
  ∀ s : State,
    (CfgIsLegal s.cfg → ∃ t, exec .senc s = .next t ∧ t.consumed = s.input.length) ∧
    (CfgIsLegal s.cfg → ∃ t, exec .sencw s = .next t ∧ t.consumed = s.input.length) ∧
    (∀ seed, ∃ t, exec (.crc16 seed) s = .next t ∧ t.consumed = s.input.length) ∧
    (s.input.length ≤ 4095 → ∃ t, exec .dfufrm s = .next t ∧ t.consumed = s.input.length) ∧
    (∀ f v x, ∃ t, exec (.wrcfg f v) s = .next t ∧ t.consumed = 0 ∧ exec (.wrcfg f v) { s with input := x } = .next t) ∧
    (CfgIsLegal s.cfg → ∃ t, exec .sdec s = .next t ∧ t.consumed ≤ s.input.length ∧
      (decTermBit t.status = false → t.consumed = s.input.length) ∧
      (decTermBit t.status = true → s.input[t.consumed - 1]? = some s.cfg.delim ∧
        ∀ rest, exec .sdec { s with input := s.input.take t.consumed ++ rest } = .next t))

/-! The CRC engine -/

/-- R140, R141, R142: CRC16's words, and its result by the spec's sub-steps on unsigned numbers. -/
def Obligations.Crc16Command : Prop :=
  (∀ (w : Word) (seed : Half),
    decode w = .instr (.crc16 seed) ↔ w = 0x00000004#32 ||| (seed.setWidth 32 <<< 16)) ∧
  ∀ (s : State) (seed : Half),
    exec (.crc16 seed) s = .next { s with
      result := some (crcR141 s.input seed), output := [], status := 0x0000, consumed := s.input.length, input := [] }

/-- R143: the five sub-steps are the polynomial step, and so RESULT is the polynomial's checksum. -/
def Obligations.CrcStepIsThePolynomialStep : Prop :=
  (∀ (reg : Half) (b : Byte), crcStep reg b = polyStepR143 reg b) ∧
  ∀ (s : State) (seed : Half), ∃ t, exec (.crc16 seed) s = .next t ∧
    t.result = some (s.input.foldl polyStepR143 seed)

/-- R144, R145: the checksum of nothing is the seed, and a second CRC16 seeded with RESULT goes on where the first
stopped. -/
def Obligations.ChecksumsStream : Prop :=
  ∀ (s : State) (x y : List Byte) (seed : Half),
    (∃ t, exec (.crc16 seed) { s with input := [] } = .next t ∧ t.result = some seed) ∧
    ∃ t u r, exec (.crc16 seed) { s with input := x } = .next t ∧ t.result = some r ∧
      exec (.crc16 r) { t with input := y } = .next u ∧
      ∃ v, exec (.crc16 seed) { s with input := x ++ y } = .next v ∧ v.result = u.result

/-- R146: one truncation at the end of a step gives what the truncations at sub-steps 4 and 5 give. -/
def Obligations.TruncationPointIsIrrelevant : Prop :=
  ∀ (reg : Half) (b : Byte),
    crcStepR146 reg.toNat b.toNat = (crcStep reg b).toNat ∧ crcStepR140 reg.toNat b.toNat = (crcStep reg b).toNat

/-! The DFU frame -/

/-- R160, R161, R162: DFUFRM's word; the frame and the new SEQ for a payload of at most 4095 bytes; ErrLen beyond. How
much of IN an ErrLen reads is the model's (log 2), so the statement leaves it open. -/
def Obligations.DfufrmCommand : Prop :=
  (∀ w : Word, decode w = .instr .dfufrm ↔ w = 0x00000005#32) ∧
  ∀ s : State,
    (s.input.length ≤ 4095 → exec .dfufrm s = .next { s with
      seq := BitVec.ofNat 3 ((s.seq.toNat + 1) % 8),
      output := [0xC0#8] ++ stuffedR100 ⟨0xC0, 0xDB, 0xDC, 0xDD⟩ (bodyR160 (s.seq + 1) s.input) ++ [0xC0#8],
      status := 0x0000, consumed := s.input.length, input := [] }) ∧
    (4095 < s.input.length →
      ∃ n, exec .dfufrm s = .next { s with output := [], status := 0x0004, consumed := n, input := [] })

/-- R165, R167, R174: the header bit by bit, the length read back from it, and its checksum. -/
def Obligations.HeaderBitByBit : Prop :=
  ∀ (seq : BitVec 3) (len : Nat), len ≤ 4095 →
    ∃ h0 h1 h2 h3 : Byte, dfuHeader seq len = [h0, h1, h2, h3] ∧
      h0.extractLsb' 0 3 = seq ∧ h0.extractLsb' 3 3 = seq + 1 ∧ h0.getLsbD 6 = true ∧ h0.getLsbD 7 = true ∧
      h1.extractLsb' 0 4 = 14#4 ∧ h1.extractLsb' 4 4 = BitVec.ofNat 4 len ∧ h2 = BitVec.ofNat 8 (len >>> 4) ∧
      len = (h2.toNat <<< 4) ||| (h1.extractLsb' 4 4).toNat ∧
      (h0.toNat + h1.toNat + h2.toNat + h3.toNat) % 256 = 0

/-- R173: header bytes 0 and 1 are never a byte that is escaped; the examples for bytes 2 and 3. -/
def Obligations.FirstHeaderBytesNeedNoEscape : Prop :=
  (∀ (seq : BitVec 3) (len : Nat), len ≤ 4095 →
    ∀ b ∈ (dfuHeader seq len).take 2, b ≠ 0xC0#8 ∧ b ≠ 0xDB#8) ∧
  (∀ seq, (dfuHeader seq 3072)[2]? = some 0xC0#8 ∧ (dfuHeader seq 0xDB0)[2]? = some 0xDB#8) ∧
  (dfuHeader 1 22)[3]? = some 0xC0#8 ∧ (dfuHeader 7 5)[3]? = some 0xDB#8

/-- R172: the frame's shape and length; 0xC0 stands in it exactly twice, first and last. -/
def Obligations.FrameShape : Prop :=
  ∀ s : State, s.input.length ≤ 4095 →
    ∃ t, exec .dfufrm s = .next t ∧
      t.output = [0xC0#8] ++ stuffedR100 ⟨0xC0, 0xDB, 0xDC, 0xDD⟩ (dfuBody t.seq s.input) ++ [0xC0#8] ∧
      (dfuBody t.seq s.input).length = s.input.length + 6 ∧
      t.output.length =
        s.input.length + 8 + (dfuBody t.seq s.input).countP (fun b => b == 0xC0#8 || b == 0xDB#8) ∧
      t.output.count 0xC0#8 = 2 ∧ t.output.head? = some 0xC0#8 ∧ t.output.getLast? = some 0xC0#8

/-- R175, R147: SDEC with the DFU constants gives a frame's header, payload and CRC back, and CRC16 over all but its last
two bytes gives the CRC that those two bytes hold. -/
def Obligations.FrameDecodesAndItsCrcChecks : Prop :=
  ∀ s : State, s.input.length ≤ 4095 →
    ∃ t u v c, exec .dfufrm s = .next t ∧
      exec .sdec { t with cfg := ⟨0xC0, 0xDB, 0xDC, 0xDD⟩, input := t.output } = .next u ∧
      u.status = 0x0010#16 ∧
      u.output = dfuHeader t.seq s.input.length ++ s.input ++ [c.extractLsb' 0 8, c.extractLsb' 8 8] ∧
      exec (.crc16 0xFFFF) { u with input := u.output.take (u.output.length - 2) } = .next v ∧
      v.result = some c

/-- R176: after a reset and DFUFRMs of any admitted payloads, SEQ is their number modulo 8 and the last frame carries
it; as the list is any list, this is said of each of them. -/
def Obligations.FramesAreNumberedFromReset : Prop :=
  ∀ (s : State) (payloads : List (List Byte)) (p : List Byte) (rest : List HostAction),
    s.pending = .reset :: ((payloads ++ [p]).map (fun x => .command 0x00000005#32 x) ++ rest) →
    (∀ x ∈ payloads ++ [p], x.length ≤ 4095 ∧ admitsInput s x = true) →
    ∃ t, core.run (payloads.length + 2) s = .next t ∧
      t.seq.toNat = (0 + (payloads.length + 1)) % 8 ∧ t.output = dfuFrame t.seq p ∧ t.pending = rest

/-- R171: a DFU frame does not depend on CFG, so DFUFRM before and after any change of CFG gives the same frame. -/
def Obligations.DfuFrameIgnoresCfg : Prop :=
  ∀ (s : State) (c : Cfg), ∃ t, exec .dfufrm s = .next t ∧ exec .dfufrm { s with cfg := c } = .next { t with cfg := c }

/-- R162, R177: two DFUFRMs with the same IN give the same frame exactly when SEQ was the same before them. -/
def Obligations.SameFrameOnlyFromSameSeq : Prop :=
  ∀ s s' : State, s.input = s'.input → s.input.length ≤ 4095 →
    ∃ t t', exec .dfufrm s = .next t ∧ exec .dfufrm s' = .next t' ∧ (t.output = t'.output ↔ s.seq = s'.seq)

/-! Control -/

/-- R200, R201: WRCFG's words, and the one field each of them writes, from every CFG and whatever it becomes. -/
def Obligations.WrcfgCommand : Prop :=
  (∀ (w : Word) (v : Byte),
    (decode w = .instr (.wrcfg .delim v) ↔ w = 0x00000006#32 ||| (v.setWidth 32 <<< 16)) ∧
    (decode w = .instr (.wrcfg .esc v) ↔ w = 0x00000106#32 ||| (v.setWidth 32 <<< 16)) ∧
    (decode w = .instr (.wrcfg .dsub v) ↔ w = 0x00000206#32 ||| (v.setWidth 32 <<< 16)) ∧
    (decode w = .instr (.wrcfg .esub v) ↔ w = 0x00000306#32 ||| (v.setWidth 32 <<< 16))) ∧
  ∀ (s : State) (v : Byte) (o : State), o = { s with output := [], status := 0x0000, consumed := 0, input := [] } →
    exec (.wrcfg .delim v) s = .next { o with cfg := ⟨v, s.cfg.esc, s.cfg.dsub, s.cfg.esub⟩ } ∧
    exec (.wrcfg .esc v) s = .next { o with cfg := ⟨s.cfg.delim, v, s.cfg.dsub, s.cfg.esub⟩ } ∧
    exec (.wrcfg .dsub v) s = .next { o with cfg := ⟨s.cfg.delim, s.cfg.esc, v, s.cfg.esub⟩ } ∧
    exec (.wrcfg .esub v) s = .next { o with cfg := ⟨s.cfg.delim, s.cfg.esc, s.cfg.dsub, v⟩ }

/-- R79: the pseudo-instructions' words, and that `cfg` loads all four constants from every state. -/
def Obligations.PseudoInstructionsExpand : Prop :=
  ((expandLine (.crc16 none)).map encode = [0xFFFF0004#32] ∧
   (expandLine .cfgKiss).map encode = [0x00C00006#32, 0x00DB0106#32, 0x00DC0206#32, 0x00DD0306#32] ∧
   expandLine .cfgSlip = expandLine .cfgKiss) ∧
  ∀ (s : State) (d e ds es : Byte) (rest : List HostAction),
    expandLine (.cfg d e ds es) = [.wrcfg .delim d, .wrcfg .esc e, .wrcfg .dsub ds, .wrcfg .esub es] ∧
    (s.pending = lineActions (.cfg d e ds es) [] ++ rest →
      core.run 4 s = .next { s with
        cfg := ⟨d, e, ds, es⟩, status := 0x0000, output := [], consumed := 0, input := [], pending := rest })

/-! The whole machine -/

/-- R21: only a DFUFRM that raises no error and reset write SEQ, and what they write. -/
def Obligations.OnlyDfufrmAndResetWriteSeq : Prop :=
  ∀ s t : State, step s = .next t →
    t.seq = s.seq ∨
    (∃ bytes rest, s.pending = .command 0x00000005#32 bytes :: rest ∧ bytes.length ≤ 4095 ∧
      t.seq.toNat = (s.seq.toNat + 1) % 8) ∨
    (∃ rest, s.pending = .reset :: rest ∧ t.seq = 0)

/-- R20, R202: only a WRCFG word and reset write CFG; a WRCFG changes no other field than the one SEL names. -/
def Obligations.OnlyWrcfgAndResetWriteCfg : Prop :=
  ∀ s t : State, step s = .next t →
    t.cfg = s.cfg ∨
    (∃ f v bytes rest, s.pending = .command (encode (.wrcfg f v)) bytes :: rest ∧
      cfgField t.cfg f = v ∧ ∀ g, g ≠ f → cfgField t.cfg g = cfgField s.cfg g) ∨
    (∃ rest, s.pending = .reset :: rest ∧ t.cfg = ⟨0xC0, 0xDB, 0xDC, 0xDD⟩)

/-- R29: only a legal CRC16 word and reset write RESULT, and what they write. -/
def Obligations.OnlyCrc16AndResetWriteResult : Prop :=
  ∀ s t : State, step s = .next t →
    t.result = s.result ∨
    (∃ seed bytes rest, s.pending = .command (encode (.crc16 seed)) bytes :: rest ∧
      t.result = some (crcR141 bytes seed)) ∨
    (∃ rest, s.pending = .reset :: rest ∧ t.result = none)

/-- R27: every command overwrites all of STATUS: what stood there before makes no difference to any part of the next
state, an error leaves its bit alone, SDEC its DEC bits alone, and any other command 0. -/
def Obligations.StatusDescribesTheLastCommand : Prop :=
  ∀ (s : State) (w : Word) (bytes : List Byte) (rest : List HostAction),
    s.pending = .command w bytes :: rest →
    (∀ v, step { s with status := v } = step s) ∧
    (∀ t, step s = .next t →
      (t.status = 0x0001 ∨ t.status = 0x0002 ∨ t.status = 0x0004) ∨
      (w = 0x00000003#32 ∧ t.status = statusR104 s.cfg bytes) ∨
      (w ≠ 0x00000003#32 ∧ t.status = 0x0000))

/-- R220, R223: which error a command raises, each exactly in its case. -/
def Obligations.ErrorsAndTheirCauses : Prop :=
  ∀ (s : State) (w : Word) (bytes : List Byte) (rest : List HostAction),
    s.pending = .command w bytes :: rest → admitsInput s bytes = true →
    ∃ t, step s = .next t ∧
      (t.status = 0x0001 ↔ ¬ WordLegal w) ∧
      (t.status = 0x0002 ↔ (w = 0x00000001#32 ∨ w = 0x00000002#32 ∨ w = 0x00000003#32) ∧ ¬ CfgIsLegal s.cfg) ∧
      (t.status = 0x0004 ↔ w = 0x00000005#32 ∧ 4095 < bytes.length) ∧
      (t.status.extractLsb' 0 3 = 0#3 ↔ t.status ≠ 0x0001 ∧ t.status ≠ 0x0002 ∧ t.status ≠ 0x0004)

/-- R221, R222: after an error the state is the state before the command but for STATUS, and OUT is empty. -/
def Obligations.ErrorsArePrecise : Prop :=
  ∀ (s t : State) (w : Word) (bytes : List Byte) (rest : List HostAction),
    s.pending = .command w bytes :: rest → step s = .next t → isErrorStatus t.status = true →
    t.seq = s.seq ∧ t.cfg = s.cfg ∧ t.result = s.result ∧ t.output = [] ∧ t.input = [] ∧ t.pending = rest ∧
    t.readData = s.readData ∧ t.bufMax = s.bufMax

/-- R33: what a command does is a function of the command, IN, SEQ and CFG only: two states that agree on these give
the same OUT, STATUS, SEQ, CFG and bytes read, and RESULT is the same new value in both or the old one in each. -/
def Obligations.CommandDependsOnInputSeqAndCfgOnly : Prop :=
  ∀ (i : Instr) (s s' : State), s.input = s'.input → s.seq = s'.seq → s.cfg = s'.cfg →
    ∃ t t', exec i s = .next t ∧ exec i s' = .next t' ∧
      t.output = t'.output ∧ t.status = t'.status ∧ t.seq = t'.seq ∧ t.cfg = t'.cfg ∧ t.consumed = t'.consumed ∧
      (t.result = t'.result ∨ (t.result = s.result ∧ t'.result = s'.result))

/-- R58: every command but DFUFRM is idempotent: issued again with the same IN it leaves the whole state as it made it;
SENC, SENCW, SDEC and CRC16 leave SEQ and CFG as they were, and a second DFUFRM carries another sequence number. -/
def Obligations.CommandsButDfufrmAreIdempotent : Prop :=
  (∀ (i : Instr) (s : State), i ≠ .dfufrm →
    ∃ t, exec i s = .next t ∧ exec i { t with input := s.input } = .next t ∧ t.seq = s.seq ∧
      ((∀ f v, i ≠ .wrcfg f v) → t.cfg = s.cfg)) ∧
  ∀ s : State, s.input.length ≤ 4095 →
    ∃ t u, exec .dfufrm s = .next t ∧ exec .dfufrm { t with input := s.input } = .next u ∧ u.seq ≠ t.seq

/-- R20, R27, R29, R200: what each command leaves unchanged. Beside what is named, a command writes STATUS, OUT, the
count of bytes read and IN, which is gone. There is no memory. -/
def Obligations.CommandFrames : Prop :=
  ∀ (i : Instr) (s t : State), exec i s = .next t →
    t.pending = s.pending ∧ t.readData = s.readData ∧ t.bufMax = s.bufMax ∧ t.input = [] ∧
    ((∀ seed, i ≠ .crc16 seed) → t.result = s.result) ∧
    (i ≠ .dfufrm → t.seq = s.seq) ∧
    (∀ g, (∀ v, i ≠ .wrcfg g v) → cfgField t.cfg g = cfgField s.cfg g)

/-- R26, R223, R33, R221: every step keeps what Settled says: STATUS holds one of the values the rules allow (reserved
bits 0, at most one error bit, DEC bits only without an error), no IN is kept, and an error has put nothing out. That
nothing was read by an error is the model's field consumed (log 2). -/
def Obligations.StepKeepsSettled : Prop :=
  ∀ s t : State, Settled s → step s = .next t → Settled t

/-- R28, R35: the state after reset is settled. -/
def Obligations.ResetIsSettled : Prop := Settled State.reset

/-- R52, R8: no step changes BUF_MAX, which stands in State as a constant (log 4). -/
def Obligations.BufMaxIsConstant : Prop :=
  ∀ s t : State, step s = .next t → t.bufMax = s.bufMax

/-! The host's payloads -/

/-- R189: how the host cuts the firmware: chunks that joined give it back, ceil(len / 512) of them, each of at most 512
bytes and only the last one shorter, each Data payload 4 bytes longer and so short enough for DFUFRM. -/
def Obligations.FirmwareChunks : Prop :=
  ∀ firmware : List Byte,
    (firmwareChunks firmware).flatten = firmware ∧
    (firmwareChunks firmware).length = (firmware.length + 511) / 512 ∧
    (∀ c ∈ (firmwareChunks firmware).dropLast, c.length = 512) ∧
    (∀ c, (firmwareChunks firmware).getLast? = some c →
      c.length = firmware.length - 512 * ((firmwareChunks firmware).length - 1) ∧ 0 < c.length) ∧
    (∀ c ∈ firmwareChunks firmware, c.length ≤ 512 ∧ (dataPayload c).length = c.length + 4 ∧
      dataPayload c = [0x04, 0x00, 0x00, 0x00] ++ c)

/-- R185 to R188, R190, R191, and R253 for the reset before a session: the payloads of a session byte by byte, with the
tag's layout that the spec marks as general knowledge (log 10), and the session's actions: none for a mode other than
Application, otherwise reset and then one DFUFRM for each payload in the order Start, Init, Data, StopData, the
firmware's size taken modulo 2^32 (DESIGN CHOICE, log 10). That validate and activate give no action at all, so neither
a register read nor a reset, is the model's reading of R191's no-op (DEDUCED, log 13). -/
def Obligations.SessionPayloadsAndOrder : Prop :=
  (∀ mode sd bl app : Word,
    startPayload mode sd bl app = [0x03, 0x00, 0x00, 0x00] ++ le32 mode ++ le32 sd ++ le32 bl ++ le32 app ∧
    (startPayload mode sd bl app).length = 20) ∧
  (∀ x, initPayload x = [0x01, 0x00, 0x00, 0x00] ++ x ++ [0x00, 0x00]) ∧
  stopPayload = [0x05, 0x00, 0x00, 0x00] ∧
  ∀ initPacket firmware,
    sessionActions .other initPacket firmware = none ∧
    ∃ acts, sessionActions .application initPacket firmware = some (.reset :: acts) ∧
      acts = ([startPayload Config.appMode 0 0 (BitVec.ofNat 32 firmware.length), initPayload initPacket] ++
        (firmwareChunks firmware).map dataPayload ++ [stopPayload]).map (fun p => .command 0x00000005#32 p) ∧
      operationActions (.flash .application initPacket firmware) = .reset :: acts ∧
      operationActions (.flash .other initPacket firmware) = [] ∧
      operationActions .validate = [] ∧ operationActions .activate = []
end

