-- ==== Sys2Proof/Laws/Crc.lean ====
section
/-! SUPPORT. Laws/Crc.lean: the fold of 41_crc16.md R141. -/

namespace Sys2Proof.Machine

@[simp] theorem crc16_nil (seed : Half) : crc16 [] seed = seed := rfl

@[simp] theorem crc16_cons (b : Byte) (bs : List Byte) (seed : Half) :
    crc16 (b :: bs) seed = crc16 bs (crcStep seed b) := rfl

/-- The engine is a left fold. -/
theorem crc16_eq_foldl (x : List Byte) (seed : Half) : crc16 x seed = x.foldl crcStep seed := by
  induction x generalizing seed with
  | nil => rfl
  | cons b bs ih => simp [ih]

/-- The engine goes on where it stopped. -/
theorem crc16_append (x y : List Byte) (seed : Half) : crc16 (x ++ y) seed = crc16 y (crc16 x seed) := by
  simp [crc16_eq_foldl]

end Sys2Proof.Machine
end

