-- ==== Sys2Proof/Laws/Decode.lean ====
section
/-! SUPPORT. Laws/Decode.lean: a word and its fields, and what the decoder can answer. -/

namespace Sys2Proof

/-- A word is its OP, SEL and IMM. -/
theorem word_of_fields (w : Word) :
    w = (opOf w).setWidth 32 ||| ((selOf w).setWidth 32 <<< 8) ||| ((immOf w).setWidth 32 <<< 16) := by
  ext i hi
  simp only [opOf, selOf, immOf, BitVec.getElem_or, BitVec.getElem_shiftLeft, BitVec.getElem_setWidth,
    BitVec.getLsbD_extractLsb']
  rw [← BitVec.getLsbD_eq_getElem hi]
  by_cases h8 : i < 8
  · have : i < 16 := by omega
    simp [h8, this]
  · by_cases h16 : i < 16
    · have e : 8 + (i - 8) = i := by omega
      have l : i - 8 < 8 := by omega
      simp [h8, h16, e, l]
    · have e : 16 + (i - 16) = i := by omega
      have l : ¬ i - 8 < 8 := by omega
      have l' : i - 16 < 16 := by omega
      simp [h8, h16, e, l, l']

/-- Two words with the same three fields are one word. -/
theorem word_ext_fields {w w' : Word} (ho : opOf w = opOf w') (hs : selOf w = selOf w') (hi : immOf w = immOf w') :
    w = w' := by
  rw [word_of_fields w, word_of_fields w', ho, hs, hi]

/-- IMM is WRCFG's value below and w[31:24] above. -/
theorem immOf_eq_append (w : Word) : immOf w = reservedOf w ++ valueOf w := by
  ext i hi
  rw [BitVec.getElem_append (x := reservedOf w) (y := valueOf w) (i := i) (h := by omega)]
  by_cases h : i < 8
  · simp [h, immOf, valueOf]
  · have : 24 + (i - 8) = 16 + i := by omega
    simp [h, this, immOf, reservedOf]

/-- What SEL selects, and the other way round. -/
theorem fieldOfSel_eq_some_iff (sel : Byte) (f : CfgField) : fieldOfSel sel = some f ↔ sel = selOfField f := by
  unfold fieldOfSel
  split_ifs <;> cases f <;> simp_all [selOfField]

/-- SEL selects nothing exactly when it is above 3. -/
theorem fieldOfSel_eq_none_iff (sel : Byte) : fieldOfSel sel = none ↔ 3 < sel.toNat := by
  unfold fieldOfSel
  simp only [BitVec.toNat_eq, BitVec.toNat_ofNat]
  split_ifs <;> simp <;> omega

/-- What a command's decoding says of the word's fields, command by command. -/
def DecodesAs (w : Word) : Instr → Prop
  | .senc => opOf w = 0x01#8 ∧ selOf w = 0#8 ∧ immOf w = 0#16
  | .sencw => opOf w = 0x02#8 ∧ selOf w = 0#8 ∧ immOf w = 0#16
  | .sdec => opOf w = 0x03#8 ∧ selOf w = 0#8 ∧ immOf w = 0#16
  | .crc16 seed => opOf w = 0x04#8 ∧ selOf w = 0#8 ∧ immOf w = seed
  | .dfufrm => opOf w = 0x05#8 ∧ selOf w = 0#8 ∧ immOf w = 0#16
  | .wrcfg f v => opOf w = 0x06#8 ∧ selOf w = selOfField f ∧ reservedOf w = 0#8 ∧ valueOf w = v

theorem decodePlain_eq_instr_iff (w : Word) (i j : Instr) :
    decodePlain w i = .instr j ↔ i = j ∧ selOf w = 0#8 ∧ immOf w = 0 := by
  unfold decodePlain
  split <;> [skip; split] <;> simp_all

theorem decodeCrc16_eq_instr_iff (w : Word) (j : Instr) :
    decodeCrc16 w = .instr j ↔ j = .crc16 (immOf w) ∧ selOf w = 0#8 := by
  unfold decodeCrc16
  split <;> simp_all [eq_comm]

theorem decodeWrcfg_eq_instr_iff (w : Word) (j : Instr) :
    decodeWrcfg w = .instr j ↔ ∃ f, j = .wrcfg f (valueOf w) ∧ selOf w = selOfField f ∧ reservedOf w = 0#8 := by
  unfold decodeWrcfg
  split
  · rename_i h
    simp only [reduceCtorEq, false_iff, not_exists, not_and]
    intro f _ hs
    rw [(fieldOfSel_eq_some_iff _ f).2 hs] at h
    cases h
  · rename_i f h
    have hs := (fieldOfSel_eq_some_iff _ f).1 h
    split
    · rename_i hr
      simp only [reduceCtorEq, false_iff, not_exists, not_and]
      intro g _ _
      exact hr
    · rename_i hr
      simp only [ne_eq, not_not] at hr
      constructor
      · intro hj
        exact ⟨f, by simpa [eq_comm] using hj, hs, hr⟩
      · rintro ⟨g, rfl, hg, _⟩
        have : some g = some f := by rw [← h, (fieldOfSel_eq_some_iff _ g).2 hg]
        cases this
        rfl

/-- The decoder answers a command exactly on the words of that command. -/
theorem decode_eq_instr_iff (w : Word) (i : Instr) : decode w = .instr i ↔ DecodesAs w i := by
  by_cases h1 : opOf w = 0x01#8
  · have : decode w = decodePlain w .senc := by simp [decode, h1]
    rw [this, decodePlain_eq_instr_iff]
    cases i <;> simp [DecodesAs, h1]
  by_cases h2 : opOf w = 0x02#8
  · have : decode w = decodePlain w .sencw := by simp [decode, h2]
    rw [this, decodePlain_eq_instr_iff]
    cases i <;> simp [DecodesAs, h2]
  by_cases h3 : opOf w = 0x03#8
  · have : decode w = decodePlain w .sdec := by simp [decode, h3]
    rw [this, decodePlain_eq_instr_iff]
    cases i <;> simp [DecodesAs, h3]
  by_cases h4 : opOf w = 0x04#8
  · have : decode w = decodeCrc16 w := by simp [decode, h4]
    rw [this, decodeCrc16_eq_instr_iff]
    cases i <;> simp [DecodesAs, h4, eq_comm, and_comm]
  by_cases h5 : opOf w = 0x05#8
  · have : decode w = decodePlain w .dfufrm := by simp [decode, h5]
    rw [this, decodePlain_eq_instr_iff]
    cases i <;> simp [DecodesAs, h5]
  by_cases h6 : opOf w = 0x06#8
  · have : decode w = decodeWrcfg w := by simp [decode, h6]
    rw [this, decodeWrcfg_eq_instr_iff]
    cases i with
    | wrcfg f v =>
      simp only [DecodesAs, h6, true_and, Instr.wrcfg.injEq]
      constructor
      · rintro ⟨g, ⟨rfl, rfl⟩, hs, hr⟩; exact ⟨hs, hr, rfl⟩
      · rintro ⟨hs, hr, rfl⟩; exact ⟨f, ⟨rfl, rfl⟩, hs, hr⟩
    | _ => simp [DecodesAs, h6]
  · have : decode w = .illegal .opcode := by simp [decode, h1, h2, h3, h4, h5, h6]
    rw [this]
    cases i <;> simp [DecodesAs, h1, h2, h3, h4, h5, h6]

end Sys2Proof
end

