-- ==== Sys2Proof/Laws/PerInstr.lean ====
section
/-! SUPPORT. Laws/PerInstr.lean: what holds of each command as syntax: its word passes the check of a command word's
fields (30_encoding.md R75). -/

namespace Sys2Proof.Laws.EncodesLegal

/-- The command's word passes the check of R75. -/
def Statement (i : Instr) : Prop := (fieldsOf (encode i)).legal = true

theorem senc : Statement .senc := rfl

theorem sencw : Statement .sencw := rfl

theorem sdec : Statement .sdec := rfl

theorem crc16 (seed : Half) : Statement (.crc16 seed) := by
  have ho : opOf (encode (.crc16 seed)) = 0x04 := by
    ext i hi
    have : i < 16 := by omega
    simp [opOf, encode, BitVec.getElem_extractLsb', this]
    interval_cases i <;> decide +revert
  have hs : selOf (encode (.crc16 seed)) = 0 := by
    ext i hi
    have : 8 + i < 16 := by omega
    simp [selOf, encode, BitVec.getElem_extractLsb', this]
    interval_cases i <;> decide +revert
  simp [Statement, Fields.legal, Fields.opAssigned, Fields.selAllowed, Fields.immAllowed, fieldsOf, ho, hs]

theorem dfufrm : Statement .dfufrm := rfl

theorem wrcfg (f : CfgField) (v : Byte) : Statement (.wrcfg f v) := by
  have h : ∀ v : Fin 256, (fieldsOf (encode (.wrcfg f (BitVec.ofFin v)))).legal = true := by
    cases f <;> decide +kernel
  exact h v.toFin

end Sys2Proof.Laws.EncodesLegal
end

