-- ==== Sys2Proof/Laws/State.lean ====
section
/-! SUPPORT. Laws/State.lean: what each state operation of Machine/Ops.lean makes of each field of State, one lemma a
field, so that no proof unfolds a record update. -/

namespace Sys2Proof.Machine


@[simp] theorem popAction_seq (rest : List HostAction) (s : State) : (popAction rest s).seq = s.seq := rfl
@[simp] theorem popAction_cfg (rest : List HostAction) (s : State) : (popAction rest s).cfg = s.cfg := rfl
@[simp] theorem popAction_status (rest : List HostAction) (s : State) : (popAction rest s).status = s.status := rfl
@[simp] theorem popAction_result (rest : List HostAction) (s : State) : (popAction rest s).result = s.result := rfl
@[simp] theorem popAction_input (rest : List HostAction) (s : State) : (popAction rest s).input = s.input := rfl
@[simp] theorem popAction_output (rest : List HostAction) (s : State) : (popAction rest s).output = s.output := rfl
@[simp] theorem popAction_consumed (rest : List HostAction) (s : State) : (popAction rest s).consumed = s.consumed := rfl
@[simp] theorem popAction_readData (rest : List HostAction) (s : State) : (popAction rest s).readData = s.readData := rfl
@[simp] theorem popAction_pending (rest : List HostAction) (s : State) : (popAction rest s).pending = rest := rfl
@[simp] theorem popAction_bufMax (rest : List HostAction) (s : State) : (popAction rest s).bufMax = s.bufMax := rfl

@[simp] theorem present_seq (bytes : List Byte) (s : State) : (present bytes s).seq = s.seq := rfl
@[simp] theorem present_cfg (bytes : List Byte) (s : State) : (present bytes s).cfg = s.cfg := rfl
@[simp] theorem present_status (bytes : List Byte) (s : State) : (present bytes s).status = s.status := rfl
@[simp] theorem present_result (bytes : List Byte) (s : State) : (present bytes s).result = s.result := rfl
@[simp] theorem present_input (bytes : List Byte) (s : State) : (present bytes s).input = bytes := rfl
@[simp] theorem present_output (bytes : List Byte) (s : State) : (present bytes s).output = [] := rfl
@[simp] theorem present_consumed (bytes : List Byte) (s : State) : (present bytes s).consumed = 0 := rfl
@[simp] theorem present_readData (bytes : List Byte) (s : State) : (present bytes s).readData = s.readData := rfl
@[simp] theorem present_pending (bytes : List Byte) (s : State) : (present bytes s).pending = s.pending := rfl
@[simp] theorem present_bufMax (bytes : List Byte) (s : State) : (present bytes s).bufMax = s.bufMax := rfl

@[simp] theorem complete_seq (st : Half) (out : List Byte) (read : Nat) (s : State) : (complete st out read s).seq = s.seq := rfl
@[simp] theorem complete_cfg (st : Half) (out : List Byte) (read : Nat) (s : State) : (complete st out read s).cfg = s.cfg := rfl
@[simp] theorem complete_status (st : Half) (out : List Byte) (read : Nat) (s : State) : (complete st out read s).status = st := rfl
@[simp] theorem complete_result (st : Half) (out : List Byte) (read : Nat) (s : State) : (complete st out read s).result = s.result := rfl
@[simp] theorem complete_input (st : Half) (out : List Byte) (read : Nat) (s : State) : (complete st out read s).input = [] := rfl
@[simp] theorem complete_output (st : Half) (out : List Byte) (read : Nat) (s : State) : (complete st out read s).output = out := rfl
@[simp] theorem complete_consumed (st : Half) (out : List Byte) (read : Nat) (s : State) : (complete st out read s).consumed = read := rfl
@[simp] theorem complete_readData (st : Half) (out : List Byte) (read : Nat) (s : State) : (complete st out read s).readData = s.readData := rfl
@[simp] theorem complete_pending (st : Half) (out : List Byte) (read : Nat) (s : State) : (complete st out read s).pending = s.pending := rfl
@[simp] theorem complete_bufMax (st : Half) (out : List Byte) (read : Nat) (s : State) : (complete st out read s).bufMax = s.bufMax := rfl

@[simp] theorem raiseError_seq (e : Err) (s : State) : (raiseError e s).seq = s.seq := rfl
@[simp] theorem raiseError_cfg (e : Err) (s : State) : (raiseError e s).cfg = s.cfg := rfl
@[simp] theorem raiseError_status (e : Err) (s : State) : (raiseError e s).status = errCode e := rfl
@[simp] theorem raiseError_result (e : Err) (s : State) : (raiseError e s).result = s.result := rfl
@[simp] theorem raiseError_input (e : Err) (s : State) : (raiseError e s).input = [] := rfl
@[simp] theorem raiseError_output (e : Err) (s : State) : (raiseError e s).output = [] := rfl
@[simp] theorem raiseError_consumed (e : Err) (s : State) : (raiseError e s).consumed = 0 := rfl
@[simp] theorem raiseError_readData (e : Err) (s : State) : (raiseError e s).readData = s.readData := rfl
@[simp] theorem raiseError_pending (e : Err) (s : State) : (raiseError e s).pending = s.pending := rfl
@[simp] theorem raiseError_bufMax (e : Err) (s : State) : (raiseError e s).bufMax = s.bufMax := rfl

@[simp] theorem writeSeq_seq (v : BitVec 3) (s : State) : (writeSeq v s).seq = v := rfl
@[simp] theorem writeSeq_cfg (v : BitVec 3) (s : State) : (writeSeq v s).cfg = s.cfg := rfl
@[simp] theorem writeSeq_status (v : BitVec 3) (s : State) : (writeSeq v s).status = s.status := rfl
@[simp] theorem writeSeq_result (v : BitVec 3) (s : State) : (writeSeq v s).result = s.result := rfl
@[simp] theorem writeSeq_input (v : BitVec 3) (s : State) : (writeSeq v s).input = s.input := rfl
@[simp] theorem writeSeq_output (v : BitVec 3) (s : State) : (writeSeq v s).output = s.output := rfl
@[simp] theorem writeSeq_consumed (v : BitVec 3) (s : State) : (writeSeq v s).consumed = s.consumed := rfl
@[simp] theorem writeSeq_readData (v : BitVec 3) (s : State) : (writeSeq v s).readData = s.readData := rfl
@[simp] theorem writeSeq_pending (v : BitVec 3) (s : State) : (writeSeq v s).pending = s.pending := rfl
@[simp] theorem writeSeq_bufMax (v : BitVec 3) (s : State) : (writeSeq v s).bufMax = s.bufMax := rfl

@[simp] theorem writeCfgField_seq (f : CfgField) (v : Byte) (s : State) : (writeCfgField f v s).seq = s.seq := rfl
@[simp] theorem writeCfgField_cfg (f : CfgField) (v : Byte) (s : State) : (writeCfgField f v s).cfg = setCfgField s.cfg f v := rfl
@[simp] theorem writeCfgField_status (f : CfgField) (v : Byte) (s : State) : (writeCfgField f v s).status = s.status := rfl
@[simp] theorem writeCfgField_result (f : CfgField) (v : Byte) (s : State) : (writeCfgField f v s).result = s.result := rfl
@[simp] theorem writeCfgField_input (f : CfgField) (v : Byte) (s : State) : (writeCfgField f v s).input = s.input := rfl
@[simp] theorem writeCfgField_output (f : CfgField) (v : Byte) (s : State) : (writeCfgField f v s).output = s.output := rfl
@[simp] theorem writeCfgField_consumed (f : CfgField) (v : Byte) (s : State) : (writeCfgField f v s).consumed = s.consumed := rfl
@[simp] theorem writeCfgField_readData (f : CfgField) (v : Byte) (s : State) : (writeCfgField f v s).readData = s.readData := rfl
@[simp] theorem writeCfgField_pending (f : CfgField) (v : Byte) (s : State) : (writeCfgField f v s).pending = s.pending := rfl
@[simp] theorem writeCfgField_bufMax (f : CfgField) (v : Byte) (s : State) : (writeCfgField f v s).bufMax = s.bufMax := rfl

@[simp] theorem writeResult_seq (v : Half) (s : State) : (writeResult v s).seq = s.seq := rfl
@[simp] theorem writeResult_cfg (v : Half) (s : State) : (writeResult v s).cfg = s.cfg := rfl
@[simp] theorem writeResult_status (v : Half) (s : State) : (writeResult v s).status = s.status := rfl
@[simp] theorem writeResult_result (v : Half) (s : State) : (writeResult v s).result = some v := rfl
@[simp] theorem writeResult_input (v : Half) (s : State) : (writeResult v s).input = s.input := rfl
@[simp] theorem writeResult_output (v : Half) (s : State) : (writeResult v s).output = s.output := rfl
@[simp] theorem writeResult_consumed (v : Half) (s : State) : (writeResult v s).consumed = s.consumed := rfl
@[simp] theorem writeResult_readData (v : Half) (s : State) : (writeResult v s).readData = s.readData := rfl
@[simp] theorem writeResult_pending (v : Half) (s : State) : (writeResult v s).pending = s.pending := rfl
@[simp] theorem writeResult_bufMax (v : Half) (s : State) : (writeResult v s).bufMax = s.bufMax := rfl

@[simp] theorem hostReset_seq (s : State) : (hostReset s).seq = 0 := rfl
@[simp] theorem hostReset_cfg (s : State) : (hostReset s).cfg = ⟨0xC0, 0xDB, 0xDC, 0xDD⟩ := rfl
@[simp] theorem hostReset_status (s : State) : (hostReset s).status = 0x0000 := rfl
@[simp] theorem hostReset_result (s : State) : (hostReset s).result = none := rfl
@[simp] theorem hostReset_input (s : State) : (hostReset s).input = [] := rfl
@[simp] theorem hostReset_output (s : State) : (hostReset s).output = [] := rfl
@[simp] theorem hostReset_consumed (s : State) : (hostReset s).consumed = 0 := rfl
@[simp] theorem hostReset_readData (s : State) : (hostReset s).readData = none := rfl
@[simp] theorem hostReset_pending (s : State) : (hostReset s).pending = s.pending := rfl
@[simp] theorem hostReset_bufMax (s : State) : (hostReset s).bufMax = s.bufMax := rfl

/-! Reading back a CFG field -/

@[simp] theorem cfgField_setCfgField (c : Cfg) (f : CfgField) (v : Byte) : cfgField (setCfgField c f v) f = v := by
  cases f <;> rfl

theorem cfgField_setCfgField_of_ne (c : Cfg) {f g : CfgField} (v : Byte) (h : g ≠ f) :
    cfgField (setCfgField c f v) g = cfgField c g := by
  cases f <;> cases g <;> first | rfl | exact absurd rfl h

/-- CFG is its four fields. -/
theorem cfg_ext {c c' : Cfg} (h : ∀ f, cfgField c f = cfgField c' f) : c = c' := by
  cases c; cases c'
  simpa [cfgField] using ⟨h .delim, h .esc, h .dsub, h .esub⟩

@[simp] theorem setCfgField_idem (c : Cfg) (f : CfgField) (v : Byte) :
    setCfgField (setCfgField c f v) f v = setCfgField c f v := by
  cases f <;> rfl

end Sys2Proof.Machine
end

