-- ==== Sys2Proof/Laws/Stuffing.lean ====
section
/-! SUPPORT. Laws/Stuffing.lean: what the encoder and the decoder of 40_stuffing.md do on joined inputs. -/

namespace Sys2Proof.Machine

@[simp] theorem stuffEnc_nil (c : Cfg) : stuffEnc c [] = [] := rfl

@[simp] theorem stuffEnc_cons (c : Cfg) (b : Byte) (bs : List Byte) :
    stuffEnc c (b :: bs) = stuffByte c b ++ stuffEnc c bs := rfl

/-- The encoder replaces each byte on its own. -/
theorem stuffEnc_eq_flatMap (c : Cfg) (x : List Byte) : stuffEnc c x = x.flatMap (stuffByte c) := by
  induction x with
  | nil => rfl
  | cons b bs ih => simp [ih]

/-- A byte gives one byte or an escape pair. -/
theorem stuffByte_length (c : Cfg) (b : Byte) :
    (stuffByte c b).length = if b == c.delim || b == c.esc then 2 else 1 := by
  unfold stuffByte
  by_cases hd : b = c.delim
  · simp [hd]
  · by_cases he : b = c.esc
    · rw [if_neg hd, if_pos he]; simp [he]
    · simp [hd, he]

@[simp] theorem keepByte_bytes (b : Byte) (r : DecRun) : (keepByte b r).bytes = b :: r.bytes := rfl
@[simp] theorem keepByte_term (b : Byte) (r : DecRun) : (keepByte b r).term = r.term := rfl
@[simp] theorem keepByte_badesc (b : Byte) (r : DecRun) : (keepByte b r).badesc = r.badesc := rfl
@[simp] theorem keepByte_trailesc (b : Byte) (r : DecRun) : (keepByte b r).trailesc = r.trailesc := rfl
@[simp] theorem keepByte_read (b : Byte) (r : DecRun) : (keepByte b r).read = r.read + 1 := rfl
@[simp] theorem skipByte_bytes (r : DecRun) : (skipByte r).bytes = r.bytes := rfl
@[simp] theorem skipByte_term (r : DecRun) : (skipByte r).term = r.term := rfl
@[simp] theorem skipByte_badesc (r : DecRun) : (skipByte r).badesc = r.badesc := rfl
@[simp] theorem skipByte_trailesc (r : DecRun) : (skipByte r).trailesc = r.trailesc := rfl
@[simp] theorem skipByte_read (r : DecRun) : (skipByte r).read = r.read + 1 := rfl
@[simp] theorem dropByte_bytes (r : DecRun) : (dropByte r).bytes = r.bytes := rfl
@[simp] theorem dropByte_term (r : DecRun) : (dropByte r).term = r.term := rfl
@[simp] theorem dropByte_badesc (r : DecRun) : (dropByte r).badesc = true := rfl
@[simp] theorem dropByte_trailesc (r : DecRun) : (dropByte r).trailesc = r.trailesc := rfl
@[simp] theorem dropByte_read (r : DecRun) : (dropByte r).read = r.read + 1 := rfl

/-- A run on p followed by a run on what comes after it. -/
def joinRuns (p q : DecRun) : DecRun :=
  ⟨p.bytes ++ q.bytes, q.term, p.badesc || q.badesc, q.trailesc, p.read + q.read⟩

/-- A run that ended neither at a delimiter nor in an escape goes on as a fresh run on the rest. -/
theorem decLoop_append (c : Cfg) (p ys : List Byte) (e : Bool)
    (ht : (decLoop c e p).term = false) (hx : (decLoop c e p).trailesc = false) :
    decLoop c e (p ++ ys) = joinRuns (decLoop c e p) (decLoop c false ys) := by
  induction p generalizing e with
  | nil =>
    cases e with
    | true => simp [decLoop] at hx
    | false => simp [decLoop, joinRuns]
  | cons b bs ih =>
    cases e with
    | true =>
      simp only [List.cons_append, decLoop] at ht hx ⊢
      by_cases h1 : b = c.dsub
      · simp only [h1, if_true, keepByte_term, keepByte_trailesc] at ht hx ⊢
        rw [ih false ht hx]
        simp [keepByte, joinRuns]; omega
      · by_cases h2 : b = c.esub
        · simp only [if_neg h1, if_pos h2, keepByte_term, keepByte_trailesc] at ht hx ⊢
          rw [ih false ht hx]
          simp [keepByte, joinRuns]; omega
        · simp only [if_neg h1, if_neg h2, dropByte_term, dropByte_trailesc] at ht hx ⊢
          rw [ih false ht hx]
          simp [dropByte, joinRuns]; omega
    | false =>
      simp only [List.cons_append, decLoop] at ht hx ⊢
      by_cases h1 : b = c.esc
      · simp only [if_pos h1, skipByte_term, skipByte_trailesc] at ht hx ⊢
        rw [ih true ht hx]
        simp [skipByte, joinRuns]; omega
      · by_cases h2 : b = c.delim
        · rw [if_neg h1, if_pos h2] at ht
          simp [endOfFrame] at ht
        · simp only [if_neg h1, if_neg h2, keepByte_term, keepByte_trailesc] at ht hx ⊢
          rw [ih false ht hx]
          simp [keepByte, joinRuns]; omega

/-- Under a legal CFG the decoder reads back one encoded byte. -/
theorem decLoop_stuffByte (c : Cfg) (hc : cfgLegal c = true) (b : Byte) :
    decLoop c false (stuffByte c b) = ⟨[b], false, false, false, (stuffByte c b).length⟩ := by
  simp only [cfgLegal, Bool.and_eq_true, bne_iff_ne, ne_eq] at hc
  obtain ⟨hde, hse⟩ := hc
  unfold stuffByte
  by_cases h1 : b = c.delim
  · simp [h1, decLoop, keepByte, skipByte]
  · by_cases h2 : b = c.esc
    · rw [if_neg h1, if_pos h2, h2]
      simp [decLoop, keepByte, skipByte, Ne.symm hse]
    · simp [h1, h2, decLoop, keepByte]

/-- Under a legal CFG the decoder reads back all that was encoded. -/
theorem decLoop_stuffEnc (c : Cfg) (hc : cfgLegal c = true) (x : List Byte) :
    decLoop c false (stuffEnc c x) = ⟨x, false, false, false, (stuffEnc c x).length⟩ := by
  induction x with
  | nil => rfl
  | cons b bs ih =>
    have hb := decLoop_stuffByte c hc b
    rw [stuffEnc_cons, decLoop_append c _ _ false (by rw [hb]) (by rw [hb]), hb, ih]
    simp [joinRuns]

/-- The decoder's run never both meets the end of a frame and ends in an escape. -/
theorem decLoop_term_trailesc (c : Cfg) (e : Bool) (x : List Byte) :
    ((decLoop c e x).term && (decLoop c e x).trailesc) = false := by
  induction x generalizing e with
  | nil => simp [decLoop]
  | cons b bs ih =>
    cases e
    · simp only [decLoop]; split_ifs <;> simp [endOfFrame, ih]
    · simp only [decLoop]; split_ifs <;> simp [ih]

/-- The first encoded byte is never the delimiter under a legal CFG. -/
theorem stuffEnc_head_ne_delim (c : Cfg) (hc : cfgLegal c = true) (x : List Byte) :
    (stuffEnc c x).head? ≠ some c.delim := by
  simp only [cfgLegal, Bool.and_eq_true, bne_iff_ne, ne_eq] at hc
  cases x with
  | nil => simp
  | cons b bs =>
    simp only [stuffEnc_cons, stuffByte]
    split_ifs with h1 h2
    · simp [Ne.symm hc.1]
    · simp [Ne.symm hc.1]
    · simp [h1]

/-- An input that does not begin with the delimiter is decoded from its first byte on. -/
theorem stuffDec_of_head_ne (c : Cfg) (x : List Byte) (h : x.head? ≠ some c.delim) :
    stuffDec c x = ⟨decLoop c false x, !x.isEmpty⟩ := by
  cases x with
  | nil => rfl
  | cons b bs =>
    have : b ≠ c.delim := by simpa using h
    simp [stuffDec, this]

/-- A leading delimiter is stripped. -/
theorem stuffDec_delim_cons (c : Cfg) (x : List Byte) :
    stuffDec c (c.delim :: x) = ⟨skipByte (decLoop c false x), false⟩ := by
  simp [stuffDec]

/-- A decoding that ended neither at a delimiter nor in an escape goes on as a fresh run on what comes after it. -/
theorem stuffDec_append (c : Cfg) (p ys : List Byte) (hp : p ≠ [])
    (ht : (stuffDec c p).run.term = false) (hx : (stuffDec c p).run.trailesc = false) :
    stuffDec c (p ++ ys) = ⟨joinRuns (stuffDec c p).run (decLoop c false ys), (stuffDec c p).nolead⟩ := by
  cases p with
  | nil => exact absurd rfl hp
  | cons b bs =>
    rw [List.cons_append]
    by_cases h : b = c.delim
    · subst h
      rw [stuffDec_delim_cons] at ht hx ⊢
      simp only [skipByte_term, skipByte_trailesc] at ht hx
      rw [stuffDec_delim_cons, decLoop_append c bs ys false ht hx]
      simp [joinRuns, skipByte]; omega
    · have h1 := stuffDec_of_head_ne c (b :: bs) (by simpa using h)
      have h2 := stuffDec_of_head_ne c (b :: (bs ++ ys)) (by simpa using h)
      rw [h1] at ht hx ⊢
      rw [h2, ← List.cons_append, decLoop_append c _ ys false ht hx]
      rfl

/-- Without an unescaped delimiter the loop reads everything. -/
theorem decLoop_read_of_not_term (c : Cfg) (e : Bool) (x : List Byte) (h : (decLoop c e x).term = false) :
    (decLoop c e x).read = x.length := by
  induction x generalizing e with
  | nil => simp [decLoop]
  | cons b bs ih =>
    cases e <;> simp only [decLoop] at h ⊢ <;> split_ifs at h ⊢ <;> simp_all [endOfFrame]

/-- The loop keeps no more bytes than it reads, and reads no more than there are. -/
theorem decLoop_length_le (c : Cfg) (e : Bool) (x : List Byte) :
    (decLoop c e x).bytes.length ≤ (decLoop c e x).read ∧ (decLoop c e x).read ≤ x.length := by
  induction x generalizing e with
  | nil => simp [decLoop]
  | cons b bs ih =>
    have h1 := ih true
    have h2 := ih false
    cases e <;> simp only [decLoop] <;> split_ifs <;> simp [endOfFrame] <;> omega

/-- The bits of an SDEC's STATUS are the decoder's flags. -/
theorem decStatus_bits (t b x n : Bool) :
    decTermBit (decStatus t b x n) = t ∧ decBadescBit (decStatus t b x n) = b ∧
    decTrailescBit (decStatus t b x n) = x ∧ decNoleadBit (decStatus t b x n) = n := by
  revert t b x n; decide

/-- Flags of two decodings, joined. -/
theorem decStatus_or (t b x n t' b' x' n' : Bool) :
    decStatus t b x n ||| decStatus t' b' x' n' = decStatus (t || t') (b || b') (x || x') (n || n') := by
  revert t b x n t' b' x' n'; decide

end Sys2Proof.Machine
end

