-- ==== Sys2Proof/Laws/Step.lean ====
section
/-! SUPPORT. Laws/Step.lean: the shared operations and the step, each said once: what they can answer, so that no proof
unfolds them. -/

namespace Sys2Proof.Machine

theorem underLegalCfg_of_legal {s : State} (t : State) (h : cfgLegal s.cfg = true) :
    underLegalCfg s t = .next t := by simp [underLegalCfg, h]

theorem underLegalCfg_of_illegal {s : State} (t : State) (h : cfgLegal s.cfg = false) :
    underLegalCfg s t = .next (raiseError .cfg s) := by simp [underLegalCfg, h]

/-- The two ways an instruction under the CFG check answers. -/
theorem underLegalCfg_cases {s t u : State} (h : underLegalCfg s t = .next u) :
    (cfgLegal s.cfg = true ∧ u = t) ∨ (cfgLegal s.cfg = false ∧ u = raiseError .cfg s) := by
  unfold underLegalCfg at h
  split at h <;> simp_all

/-- Every command completes: with its effect, or with its error. -/
theorem exec_cases {i : Instr} {s u : State} (h : exec i s = .next u) :
    (∃ e, u = raiseError e s ∧ e ≠ .illegal) ∨
    (∃ st out n, u = complete st out n s ∧ (st = statusOk ∨ ∃ d, st = sdecStatus d ∧ d = stuffDec s.cfg s.input)) ∨
    (∃ seed, i = .crc16 seed ∧ u = writeResult (crc16 s.input seed) (complete statusOk [] s.input.length s)) ∨
    (i = .dfufrm ∧ s.input.length ≤ lenMax ∧
      u = writeSeq (s.seq + 1) (complete statusOk (dfuFrame (s.seq + 1) s.input) s.input.length s)) ∨
    (∃ f v, i = .wrcfg f v ∧ u = writeCfgField f v (complete statusOk [] 0 s)) := by
  cases i with
  | senc =>
    rcases underLegalCfg_cases h with ⟨_, rfl⟩ | ⟨_, rfl⟩
    · exact .inr (.inl ⟨_, _, _, rfl, .inl rfl⟩)
    · exact .inl ⟨_, rfl, by decide⟩
  | sencw =>
    rcases underLegalCfg_cases h with ⟨_, rfl⟩ | ⟨_, rfl⟩
    · exact .inr (.inl ⟨_, _, _, rfl, .inl rfl⟩)
    · exact .inl ⟨_, rfl, by decide⟩
  | sdec =>
    rcases underLegalCfg_cases h with ⟨_, rfl⟩ | ⟨_, rfl⟩
    · exact .inr (.inl ⟨_, _, _, rfl, .inr ⟨_, rfl, rfl⟩⟩)
    · exact .inl ⟨_, rfl, by decide⟩
  | crc16 seed =>
    simp only [exec, execCrc16, Host.Outcome.next.injEq] at h
    exact .inr (.inr (.inl ⟨seed, rfl, h.symm⟩))
  | dfufrm =>
    simp only [exec, execDfufrm] at h
    split at h
    · simp only [Host.Outcome.next.injEq] at h
      exact .inl ⟨_, h.symm, by decide⟩
    · simp only [Host.Outcome.next.injEq] at h
      exact .inr (.inr (.inr (.inl ⟨rfl, by omega, h.symm⟩)))
  | wrcfg f v =>
    simp only [exec, execWrcfg, Host.Outcome.next.injEq] at h
    exact .inr (.inr (.inr (.inr ⟨f, v, rfl, h.symm⟩)))

/-- A register read that answers hands out the register's value and changes nothing else. -/
theorem readPort_cases {n : Nat} {s u : State} (h : readPort n s = .next u) :
    ∃ r v, portOfNumber n = some r ∧ portValue s r = some v ∧ u = { s with readData := some v } := by
  unfold readPort at h
  split at h
  · cases h
  · rename_i r hr
    split at h
    · cases h
    · rename_i v hv
      exact ⟨r, v, hr, hv, by simpa using h.symm⟩

/-- What an issued word does when the step answers. -/
theorem runCommand_cases {w : Word} {bytes : List Byte} {rest : List HostAction} {s u : State}
    (h : runCommand w bytes rest s = .next u) :
    admitsInput s bytes = true ∧
    ((∃ i, decode w = .instr i ∧ exec i (issued bytes rest s) = .next u) ∨
     ((∃ why, decode w = .illegal why) ∧ u = illegalWord (issued bytes rest s))) := by
  unfold runCommand at h
  split at h
  · rename_i ha
    refine ⟨ha, ?_⟩
    split at h
    · rename_i i hi
      exact .inl ⟨i, hi, h⟩
    · rename_i why hw
      exact .inr ⟨⟨why, hw⟩, by simpa using h.symm⟩
  · cases h

/-- Everything a step can do. -/
theorem step_cases {s u : State} (h : step s = .next u) :
    (s.pending = [] ∧ u = s) ∨
    (∃ w bytes rest, s.pending = .command w bytes :: rest ∧ runCommand w bytes rest s = .next u) ∨
    (∃ n rest, s.pending = .readReg n :: rest ∧ readPort n (popAction rest s) = .next u) ∨
    (∃ rest, s.pending = .reset :: rest ∧ u = hostReset (popAction rest s)) := by
  unfold step at h
  split at h
  · rename_i hp
    exact .inl ⟨hp, by simpa using h.symm⟩
  · rename_i w bytes rest hp
    exact .inr (.inl ⟨w, bytes, rest, hp, h⟩)
  · rename_i n rest hp
    exact .inr (.inr (.inl ⟨n, rest, hp, h⟩))
  · rename_i rest hp
    exact .inr (.inr (.inr ⟨rest, hp, by simpa using h.symm⟩))

@[simp] theorem issued_seq (b : List Byte) (r : List HostAction) (s : State) : (issued b r s).seq = s.seq := rfl
@[simp] theorem issued_cfg (b : List Byte) (r : List HostAction) (s : State) : (issued b r s).cfg = s.cfg := rfl
@[simp] theorem issued_status (b : List Byte) (r : List HostAction) (s : State) :
    (issued b r s).status = s.status := rfl
@[simp] theorem issued_result (b : List Byte) (r : List HostAction) (s : State) :
    (issued b r s).result = s.result := rfl
@[simp] theorem issued_input (b : List Byte) (r : List HostAction) (s : State) : (issued b r s).input = b := rfl
@[simp] theorem issued_output (b : List Byte) (r : List HostAction) (s : State) : (issued b r s).output = [] := rfl
@[simp] theorem issued_consumed (b : List Byte) (r : List HostAction) (s : State) : (issued b r s).consumed = 0 := rfl
@[simp] theorem issued_readData (b : List Byte) (r : List HostAction) (s : State) :
    (issued b r s).readData = s.readData := rfl
@[simp] theorem issued_pending (b : List Byte) (r : List HostAction) (s : State) : (issued b r s).pending = r := rfl
@[simp] theorem issued_bufMax (b : List Byte) (r : List HostAction) (s : State) :
    (issued b r s).bufMax = s.bufMax := rfl

/-- No command stops: each answers a next state (60_exceptions.md R221, R224). -/
theorem exec_answers (i : Instr) (s : State) : ∃ t, exec i s = .next t := by
  cases i <;>
    simp only [exec, execSenc, execSencw, execSdec, execCrc16, execDfufrm, execWrcfg, underLegalCfg] <;>
    (try split) <;> exact ⟨_, rfl⟩

/-- A command with the action taken is the dispatch on its word. -/
theorem step_of_command {s : State} {w : Word} {bytes : List Byte} {rest : List HostAction}
    (h : s.pending = .command w bytes :: rest) : step s = runCommand w bytes rest s := by
  unfold step; rw [h]

/-- What a run of k + 1 steps that answers began with. -/
theorem run_succ_cases {k : Nat} {s u : State} (h : Sys2Proof.core.run (k + 1) s = .next u) :
    ∃ t : State, step s = .next t ∧ Sys2Proof.core.run k t = .next u := by
  have : ∃ t : State, Sys2Proof.core.step s = .next t ∧ Sys2Proof.core.run k t = .next u := by
    simp only [Host.Core.run] at h
    split at h
    · rename_i t ht; exact ⟨t, ht, h⟩
    · cases h
    · cases h
  exact this

/-- A step that answers, and then k more. -/
theorem run_succ_of_step {k : Nat} {s t : State} (h : step s = .next t) :
    Sys2Proof.core.run (k + 1) s = Sys2Proof.core.run k t := by
  have h' : Sys2Proof.core.step s = .next t := h
  simp only [Host.Core.run, h']

end Sys2Proof.Machine
end

