-- ==== Sys2Proof/Tests/Slice0.lean ====
section
/-! SUPPORT. Tests/Slice0.lean: the model's own tests. Expected values are the spec's: words from 30_encoding.md R71 to
R80, vectors from 95_test_vectors.md. Then, for every statement with hypotheses, a witness: a concrete state and operands
that meet them together. -/

namespace Sys2Proof.Tests
open Sys2Proof.Machine

/-- The next state of an answer, if it is one. -/
def nextOf (o : Host.Outcome State Fault Refusal) : Option State :=
  match o with
  | .next t => some t
  | .fault _ => none
  | .refused _ => none

/-- The state after reset with this IN presented. -/
def given (bytes : List Byte) : State := { State.reset with input := bytes }

/-- The state after reset with these host actions to come. -/
def willDo (acts : List HostAction) : State := { State.reset with pending := acts }

/-! The check of a word's fields refuses each kind of ill-formed word (R75, R80) -/

theorem test_wf_op_zero_refused : (⟨0x00, 0x00, 0x0000⟩ : Fields).opAssigned = false := by decide
theorem test_wf_op_seven_refused : (⟨0x07, 0x00, 0x0000⟩ : Fields).opAssigned = false := by decide
theorem test_wf_senc_sel_refused : (⟨0x01, 0x01, 0x0000⟩ : Fields).selAllowed = false := by decide
theorem test_wf_crc16_sel_refused : (⟨0x04, 0x01, 0xFFFF⟩ : Fields).selAllowed = false := by decide
theorem test_wf_wrcfg_sel_refused : (⟨0x06, 0x04, 0x0000⟩ : Fields).selAllowed = false := by decide
theorem test_wf_dfufrm_imm_refused : (⟨0x05, 0x00, 0x0001⟩ : Fields).immAllowed = false := by decide
theorem test_wf_wrcfg_imm_refused : (⟨0x06, 0x00, 0x0100⟩ : Fields).immAllowed = false := by decide
theorem test_wf_wrcfg_accepted : (⟨0x06, 0x03, 0x00FF⟩ : Fields).legal = true := by decide

/-! Decoding: each constructor's word, bit by bit from R71 to R75 (IMM, SEL, OP) -/

theorem test_decode_senc : decode 0b00000000000000000000000000000001#32 = .instr .senc := by decide
theorem test_decode_sencw : decode 0b00000000000000000000000000000010#32 = .instr .sencw := by decide
theorem test_decode_sdec : decode 0b00000000000000000000000000000011#32 = .instr .sdec := by decide
theorem test_decode_crc16 : decode 0b00011101000011110000000000000100#32 = .instr (.crc16 0x1D0F) := by decide
theorem test_decode_dfufrm : decode 0b00000000000000000000000000000101#32 = .instr .dfufrm := by decide
theorem test_decode_wrcfg_delim :
    decode 0b00000000011111100000000000000110#32 = .instr (.wrcfg .delim 0x7E) := by decide
theorem test_decode_wrcfg_esub :
    decode 0b00000000010111010000001100000110#32 = .instr (.wrcfg .esub 0x5D) := by decide
theorem test_decode_crc16_with_sel : decode 0x00000104#32 = .illegal .sel := by decide
theorem test_decode_wrcfg_reserved : decode 0x01000006#32 = .illegal .imm := by decide
theorem test_decode_zero : decode 0x00000000#32 = .illegal .opcode := by decide
theorem test_table_word : decodeTableWord 32 0x007D0106 = some (.wrcfg .esc 0x7D) := by decide
theorem test_table_word_refused : decodeTableWord 32 0x00000406 = none := by decide

/-! One command each: 95_test_vectors.md sections 2.1 to 2.8 -/

theorem test_senc_both_escapes :
    (nextOf (exec .senc (given [0x01, 0xC0, 0x02, 0xDB, 0x03]))).map (fun t => (t.output, t.status)) =
      some ([0x01, 0xDB, 0xDC, 0x02, 0xDB, 0xDD, 0x03], 0x0000) := by decide

theorem test_senc_err_cfg :
    (nextOf (exec .senc { given [0x7E, 0x11, 0x7D] with cfg := ⟨0x7E, 0x7E, 0x5E, 0x5D⟩ })).map
      (fun t => (t.output, t.status, t.consumed)) = some ([], 0x0002, 0) := by decide

theorem test_sencw_wraps :
    (nextOf (exec .sencw (given [0x00, 0xC0, 0xDB, 0x41]))).map (·.output) =
      some [0xC0, 0x00, 0xDB, 0xDC, 0xDB, 0xDD, 0x41, 0xC0] := by decide

theorem test_sdec_escaped_delimiter_is_unknown :
    (nextOf (exec .sdec (given [0xC0, 0xDB, 0xC0, 0x43, 0xC0]))).map (fun t => (t.output, t.status)) =
      some ([0x43], 0x0030) := by decide

theorem test_sdec_no_leading_delimiter :
    (nextOf (exec .sdec (given [0xDB, 0xDC]))).map (fun t => (t.output, t.status)) = some ([0xC0], 0x0080) := by decide

theorem test_crc16_check_value :
    (nextOf (exec (.crc16 0xFFFF) (given [0x31, 0x32, 0x33, 0x34, 0x35, 0x36, 0x37, 0x38, 0x39]))).map (·.result) =
      some (some 0x29B1) := by decide

theorem test_crc16_other_seed :
    (nextOf (exec (.crc16 0x1D0F) (given [0x41]))).map (fun t => (t.result, t.status, t.seq)) =
      some (some 0x9479, 0x0000, 0) := by decide

theorem test_dfufrm_payload_escapes :
    (nextOf (exec .dfufrm { given [0x04, 0x00, 0x00, 0x00, 0xC0, 0xDB, 0x00] with seq := 1 })).map
      (fun t => (t.output, t.seq)) =
      some ([0xC0, 0xDA, 0x7E, 0x00, 0xA8, 0x04, 0x00, 0x00, 0x00, 0xDB, 0xDC, 0xDB, 0xDD, 0x00, 0xDA, 0x1E, 0xC0], 2) := by
  decide

theorem test_dfufrm_seq_wraps :
    (nextOf (exec .dfufrm { given [0x05, 0x00, 0x00, 0x00] with seq := 7 })).map (fun t => (t.output, t.seq)) =
      some ([0xC0, 0xC8, 0x4E, 0x00, 0xEA, 0x05, 0x00, 0x00, 0x00, 0x36, 0x0A, 0xC0], 0) := by decide

theorem test_wrcfg_one_field :
    (nextOf (exec (.wrcfg .esc 0x7D) { given [] with cfg := ⟨0x7E, 0xDB, 0xDC, 0xDD⟩ })).map (fun t => cfgWord t.cfg) =
      some 0xDDDC7D7E := by decide

theorem test_header_needs_escape : dfuHeader 7 5 = [0xC7, 0x5E, 0x00, 0xDB] := by decide

theorem test_header_longest : dfuHeader 1 4095 = [0xD1, 0xFE, 0xFF, 0x32] := by decide

theorem test_crc_step_trace : crcStep 0xFFFF 0x31 = 0xC782 := by decide

/-! The step -/

theorem test_step_runs_fetched_word :
    (nextOf (step (State.reset.withFetchWord 32 0x00000005))).map (·.output) =
      some [0xC0, 0xD1, 0x0E, 0x00, 0x21, 0x35, 0x75, 0xC0] := by decide

theorem test_step_illegal_word :
    (nextOf (step (willDo [.command 0x00010005 [0x05, 0x00, 0x00, 0x00]]))).map (fun t => (t.status, t.seq, t.output)) =
      some (0x0001, 0, []) := by decide

theorem test_step_read_cfg : (nextOf (step (willDo [.readReg 3]))).map (·.readData) = some (some 0xDDDCDBC0) := by decide

theorem test_step_read_result_without_value : step (willDo [.readReg 1]) = .refused .resultHasNoValue := by rfl

theorem test_asm_cfg_kiss :
    (lineActions .cfgKiss []) = [.command 0x00C00006 [], .command 0x00DB0106 [], .command 0x00DC0206 [],
      .command 0x00DD0306 []] := by decide

theorem test_asm_read : lineActions (.read .seq) [] = [.readReg 2] := by decide

theorem test_parse_wrcfg :
    parseLine ['w', 'r', 'c', 'f', 'g', ' ', 'e', 's', 'c', ',', ' ', '0', 'x', '7', 'D', ' ', ';', ' ', 'x'] =
      some (.wrcfg .esc 0x7D, []) := by decide

theorem test_parse_input :
    parseLine ['s', 'e', 'n', 'c', ' ', 'I', 'N', ' ', '=', ' ', '[', '7', 'E', ',', ' ', '1', '1', ']'] =
      some (.senc, [0x7E, 0x11]) := by decide

/-- R78: comments begin with a semicolon; 95_test_vectors.md has lines that hold nothing else. -/
theorem test_assemble_comment_line :
    assemble [[' ', ';', ' ', 'x'], [], ['r', 'e', 'a', 'd', ' ', 'S', 'E', 'Q']] = some [.readReg 2] := by decide

theorem test_assemble_read_with_input :
    assembleLine ['r', 'e', 'a', 'd', ' ', 'S', 'E', 'Q', ' ', 'I', 'N', '=', '[', '0', '1', ']'] = none := by decide

/-! Witnesses: every statement's hypotheses are met -/

theorem witness_EncodeDecodeAgree : decode 0x005D0306#32 = .instr (.wrcfg .esub 0x5D) := by decide

theorem witness_EveryWordDecodesToOneRowOrIllegal :
    (⟨"WRCFG", 0x00000006, 0xFF00FCFF⟩ : OpcodeRow) ∈ opcodeRows ∧
    (⟨"WRCFG", 0x00000006, 0xFF00FCFF⟩ : OpcodeRow).matchesWord 0x00FF0306 = true := by decide

theorem witness_StepRunsDecodedCommand :
    (willDo [.command 0x00000003 [0xC0]]).pending = .command 0x00000003 [0xC0] :: [] ∧
    admitsInput (willDo [.command 0x00000003 [0xC0]]) [0xC0] = true ∧ decode 0x00000003 = .instr .sdec := by decide

theorem witness_IllegalWordRaisesErrIllegal :
    (willDo [.command 0x00000406 [0x01]]).pending = .command 0x00000406 [0x01] :: [] ∧
    admitsInput (willDo [.command 0x00000406 [0x01]]) [0x01] = true ∧ ¬ WordLegal 0x00000406 := by decide

/-- A state whose BUF_MAX is 1, with one command to come. -/
def tight (w : Word) (bytes : List Byte) : State := { willDo [.command w bytes] with bufMax := some 1 }

theorem witness_IssueBeyondBufMaxHasNoStep_beyond :
    (tight 0x00000001 [0x01, 0x02]).pending = .command 0x00000001 [0x01, 0x02] :: [] ∧
    (tight 0x00000001 [0x01, 0x02]).bufMax = some 1 ∧ 1 < ([0x01, 0x02] : List Byte).length := by decide

theorem witness_IssueBeyondBufMaxHasNoStep_unbounded :
    (willDo [.command 0x00000001 [0x01]]).pending = .command 0x00000001 [0x01] :: [] ∧
    (willDo [.command 0x00000001 [0x01]]).bufMax = none := by decide

/-- At the bound itself the command runs. -/
theorem witness_bufMax_boundary : (nextOf (step (tight 0x00000001 [0xC0]))).map (·.output) = some [0xDB, 0xDC] := by decide

theorem witness_RegisterPortReads :
    (willDo [.readReg 0]).pending = .readReg 0 :: [] ∧ (willDo [.readReg 2]).pending = .readReg 2 :: [] ∧
    (willDo [.readReg 3]).pending = .readReg 3 :: [] ∧ (willDo [.readReg 4]).pending = .readReg 4 :: [] ∧ 3 < 4 := by
  decide

theorem witness_RegisterPortReads_result :
    ({ willDo [.readReg 1] with result := some 0x29B1 } : State).pending = .readReg 1 :: [] ∧
    ({ willDo [.readReg 1] with result := some 0x29B1 } : State).result = some 0x29B1 ∧
    (willDo [.readReg 1]).result = none := by decide

theorem witness_ResultReadsLastChecksum_none :
    (willDo ([.reset, .command 0x00000104 [0x01]] ++ .readReg 1 :: [])).pending =
      [.reset, .command 0x00000104 [0x01]] ++ .readReg 1 :: [] ∧
    (willDo ([.reset, .command 0x00000104 [0x01]] ++ .readReg 1 :: [])).result = none ∧
    (∀ w bytes, HostAction.command w bytes ∈ [HostAction.reset, .command 0x00000104 [0x01]] →
      ∀ seed, w ≠ encode (.crc16 seed)) ∧
    Sys2Proof.core.run 2 (willDo ([.reset, .command 0x00000104 [0x01]] ++ .readReg 1 :: [])) =
      .next { willDo [.readReg 1] with status := 0x0001 } := by
  refine ⟨by decide, by decide, ?_, by rfl⟩
  intro w bytes h seed hw
  simp only [List.mem_cons, HostAction.command.injEq, reduceCtorEq, List.not_mem_nil, or_false, false_or] at h
  rw [h.1] at hw
  have hs : ∀ s : Fin 65536, selOf (encode (.crc16 (BitVec.ofFin s))) = 0#8 := by
    intro s
    ext i hi
    have h16 : 8 + i < 16 := by omega
    simp only [selOf, encode, BitVec.getElem_extractLsb', BitVec.getLsbD_or, BitVec.getLsbD_shiftLeft, h16]
    interval_cases i <;> simp
  have hw' := congrArg selOf hw
  rw [hs seed.toFin] at hw'
  revert hw'; decide

theorem witness_ResultReadsLastChecksum_value :
    (willDo (.command (encode (.crc16 0xFFFF)) [0x41] :: ([.command 0x00000001 []] ++ .readReg 1 :: []))).pending =
      .command (encode (.crc16 0xFFFF)) [0x41] :: ([.command 0x00000001 []] ++ .readReg 1 :: []) ∧
    HostAction.reset ∉ [HostAction.command 0x00000001 []] ∧
    step (willDo (.command (encode (.crc16 0xFFFF)) [0x41] :: ([.command 0x00000001 []] ++ .readReg 1 :: []))) =
      .next { willDo ([.command 0x00000001 []] ++ .readReg 1 :: []) with result := some 0xB915, consumed := 1 } ∧
    Sys2Proof.core.run 1 ({ willDo ([.command 0x00000001 []] ++ .readReg 1 :: []) with
      result := some 0xB915, consumed := 1 } : State) = .next { willDo [.readReg 1] with result := some 0xB915 } := by
  exact ⟨by decide, by decide, by rfl, by rfl⟩

theorem witness_ResetSetsEveryRegister :
    ({ willDo [.reset] with seq := 5, status := 0x0004, result := some 1 } : State).pending = .reset :: [] := by decide

theorem witness_BlockWaitsForTheHost : State.reset.pending = [] := by decide

theorem witness_legal_cfg : CfgIsLegal State.reset.cfg ∧ CfgIsLegal ⟨0xC0, 0xDB, 0xC0, 0xDB⟩ := by decide

theorem witness_illegal_cfg : ¬ CfgIsLegal ⟨0x7E, 0x7E, 0x5E, 0x5D⟩ ∧ ¬ CfgIsLegal ⟨0xC0, 0xDB, 0xDD, 0xDD⟩ := by decide

theorem witness_IllegalCfgRaisesErrCfg :
    ({ willDo [.command 0x00000003 []] with cfg := ⟨0xC0, 0xDB, 0xDD, 0xDD⟩ } : State).pending =
      .command 0x00000003 [] :: [] ∧
    admitsInput ({ willDo [.command 0x00000003 []] with cfg := ⟨0xC0, 0xDB, 0xDD, 0xDD⟩ } : State) [] = true ∧
    ¬ CfgIsLegal ⟨0xC0, 0xDB, 0xDD, 0xDD⟩ ∧ ¬ WordLegal 0x00000101 := by decide

/-- SDEC of a lone delimiter and of the delimiter with one byte: what EscapedByteIsMappedOrDropped,
EndOfFrameStopsDecoding and TrailingEscapeIsReported suppose of the bytes before and after. -/
theorem witness_sdec_unescaped_prefix :
    CfgIsLegal State.reset.cfg ∧ ([0xC0, 0x01] : List Byte) ≠ [] ∧
    exec .sdec { State.reset with input := [0xC0, 0x01] } = .next { State.reset with output := [0x01], consumed := 2 } ∧
    decTermBit 0x0000 = false ∧ decTrailescBit 0x0000 = false ∧
    exec .sdec { State.reset with input := State.reset.cfg.delim :: [0x42] } =
      .next { State.reset with output := [0x42], consumed := 2 } := by
  exact ⟨by decide, by decide, by rfl, by decide, by decide, by rfl⟩

/-- DEC_TERM set: the other case of EndOfFrameStopsDecoding (R109: a second delimiter right after the leading one). -/
theorem witness_EndOfFrameStopsDecoding_terminated :
    exec .sdec { State.reset with input := [0xC0, 0xC0] } =
      .next { State.reset with status := 0x0010, consumed := 2 } ∧ decTermBit 0x0010 = true := by
  exact ⟨by rfl, by decide⟩

/-- The three cases of the escaped byte, each at a byte of its own. -/
theorem witness_escaped_byte_cases :
    (0xDC : Byte) = State.reset.cfg.dsub ∧ (0xDD : Byte) = State.reset.cfg.esub ∧
    (0x41 : Byte) ≠ State.reset.cfg.dsub ∧ (0x41 : Byte) ≠ State.reset.cfg.esub := by decide

theorem witness_DelimiterOnlyAtFrameEnds :
    (State.reset.cfg.dsub ≠ State.reset.cfg.delim ∧ State.reset.cfg.esub ≠ State.reset.cfg.delim) ∧
    (CfgIsLegal ⟨0xC0, 0xDB, 0xC0, 0xDD⟩ ∧ (0xC0 : Byte) ∈ ([0xC0] : List Byte)) ∧
    (CfgIsLegal ⟨0xC0, 0xDB, 0xDC, 0xC0⟩ ∧ (0xDB : Byte) ∈ ([0xDB] : List Byte)) := by decide

theorem witness_OutputBounds :
    (∃ t, exec .senc (given [0xC0]) = .next t) ∧ (∃ t, exec .sencw (given [0xC0]) = .next t) ∧
    (∃ t, exec .sdec (given [0xC0]) = .next t) ∧ (∃ t, exec (.crc16 0) (given [0xC0]) = .next t) ∧
    (∃ t, exec .dfufrm (given [0xC0]) = .next t) ∧ (∃ t, exec (.wrcfg .esc 0) (given [0xC0]) = .next t) := by
  exact ⟨⟨_, rfl⟩, ⟨_, rfl⟩, ⟨_, rfl⟩, ⟨_, rfl⟩, ⟨_, rfl⟩, ⟨_, rfl⟩⟩

theorem witness_OutputBounds_error :
    (nextOf (exec .sdec { given [0x01] with cfg := ⟨0xC0, 0xC0, 0xDC, 0xDD⟩ })).map (·.status) = some 0x0002 := by decide

theorem witness_HowFarInputIsRead_terminated :
    (nextOf (exec .sdec (given [0xC0, 0x01, 0xC0, 0x03]))).map (fun t => (decTermBit t.status, t.consumed)) =
      some (true, 3) := by decide

/-- The longest payload and one byte more: the two cases of DFUFRM. -/
theorem witness_DfufrmCommand_boundary :
    (given (List.replicate 4095 0x00)).input.length ≤ 4095 ∧ 4095 < (given (List.replicate 4096 0x00)).input.length := by
  constructor
  · exact le_of_eq List.length_replicate
  · exact lt_of_lt_of_eq (by omega) List.length_replicate.symm

theorem witness_HeaderBitByBit : (4095 : Nat) ≤ 4095 ∧ (0 : Nat) ≤ 4095 := by decide

theorem witness_FramesAreNumberedFromReset :
    (willDo (.reset :: (([[0x05#8]] ++ [[0x06#8]]).map (fun x => .command 0x00000005#32 x) ++ []))).pending =
      .reset :: (([[0x05#8]] ++ [[0x06#8]]).map (fun x => .command 0x00000005#32 x) ++ []) ∧
    (∀ x ∈ [[0x05#8]] ++ [[0x06#8]], x.length ≤ 4095 ∧
      admitsInput (willDo (.reset :: (([[0x05#8]] ++ [[0x06#8]]).map (fun x => .command 0x00000005#32 x) ++ []))) x = true) := by
  decide

theorem witness_SameFrameOnlyFromSameSeq :
    (given [0x05]).input = ({ given [0x05] with seq := 3 } : State).input ∧ (given [0x05]).input.length ≤ 4095 := by decide

theorem witness_PseudoInstructionsExpand :
    (willDo (lineActions (.cfg 0x7E 0x7D 0x5E 0x5D) [] ++ [])).pending =
      lineActions (.cfg 0x7E 0x7D 0x5E 0x5D) [] ++ [] := by decide

/-- A step that answers, for each kind of host action: what the whole-machine statements suppose. -/
theorem witness_step_answers :
    (∃ t, step (willDo []) = .next t) ∧ (∃ t, step (willDo [.command 0x00000005 []]) = .next t) ∧
    (∃ t, step (willDo [.command 0x00000000 []]) = .next t) ∧ (∃ t, step (willDo [.readReg 0]) = .next t) ∧
    (∃ t, step (willDo [.reset]) = .next t) := by
  exact ⟨⟨_, rfl⟩, ⟨_, rfl⟩, ⟨_, rfl⟩, ⟨_, rfl⟩, ⟨_, rfl⟩⟩

theorem witness_StatusDescribesTheLastCommand :
    (willDo [.command 0x00000003 [0x45]]).pending = .command 0x00000003 [0x45] :: [] ∧
    step (willDo [.command 0x00000003 [0x45]]) =
      .next { State.reset with status := 0x0080, output := [0x45], consumed := 1 } := by
  exact ⟨by decide, by rfl⟩

theorem witness_ErrorsArePrecise :
    (willDo [.command 0x00000101 [0x45]]).pending = .command 0x00000101 [0x45] :: [] ∧
    step (willDo [.command 0x00000101 [0x45]]) = .next { State.reset with status := 0x0001 } ∧
    isErrorStatus 0x0001 = true := by
  exact ⟨by decide, by rfl, by decide⟩

theorem witness_CommandDependsOnInputSeqAndCfgOnly :
    (given [0x05]).input = ({ given [0x05] with status := 0x0010, result := some 7 } : State).input ∧
    (given [0x05]).seq = ({ given [0x05] with status := 0x0010, result := some 7 } : State).seq ∧
    (given [0x05]).cfg = ({ given [0x05] with status := 0x0010, result := some 7 } : State).cfg := by decide

theorem witness_CommandsButDfufrmAreIdempotent :
    (Instr.wrcfg .dsub 0x5E) ≠ .dfufrm ∧ (∀ f v, Instr.sdec ≠ .wrcfg f v) ∧ (given [0x05]).input.length ≤ 4095 := by
  exact ⟨by decide, fun f v => by simp, by decide⟩

theorem witness_StepKeepsSettled :
    Settled { willDo [.command 0x00000005 [0x05]] with status := 0x0030, output := [0x43], consumed := 5 } :=
  ⟨by decide, by decide, by decide⟩

theorem witness_FirmwareChunks :
    (firmwareChunks (List.replicate 513 0x00)).map List.length = [512, 1] ∧ firmwareChunks [] = [] := by decide +kernel

end Sys2Proof.Tests
end

section
/-! PROOFS. The words of the commands: a word that decodes to a command is that command's word (30_encoding.md R78). -/

namespace Sys2Proof

/-- WRCFG's IMM holds its value, zero-extended, once the word's reserved bits are 0 (30_encoding.md R73). -/
theorem immOf_of_reservedOf_zero {w : Word} (h : reservedOf w = 0#8) : immOf w = (valueOf w).setWidth 16 := by
  rw [immOf_eq_append, h, BitVec.setWidth_eq_append (by decide : 8 ≤ 16)]
  rfl

/-- The fields that decoding reads determine the word, so encoding the command gives it back. -/
theorem encode_of_decode {w : Word} {i : Instr} (h : decode w = .instr i) : encode i = w := by
  rw [decode_eq_instr_iff] at h
  rw [word_of_fields w]
  cases i with
  | senc | sencw | sdec | dfufrm =>
    obtain ⟨hop, hsel, himm⟩ := h
    rw [hop, hsel, himm]
    rfl
  | crc16 seed =>
    obtain ⟨hop, hsel, rfl⟩ := h
    rw [hop, hsel]
    simp [encode]
  | wrcfg f v =>
    obtain ⟨hop, hsel, hres, rfl⟩ := h
    rw [hop, hsel, immOf_of_reservedOf_zero hres]
    simp [encode]

end Sys2Proof
end

section
/-! PROOFS. The spec's checksum on unbounded numbers (41_crc16.md R140, R141) is the machine's engine. -/

namespace Sys2Proof.Machine

/-- A number masked by a 16-bit mask may be cut to 16 bits first. -/
theorem mod_and_of_lt {m : Nat} (x : Nat) (hm : m < 65536) : x % 65536 &&& m = x &&& m :=
  calc x % 65536 &&& m
      = x % 65536 &&& m % 65536 := by rw [Nat.mod_eq_of_lt hm]
    _ = (x &&& m) % 65536 := (Nat.and_mod_two_pow (n := 16)).symm
    _ = x &&& m := Nat.mod_eq_of_lt (Nat.and_le_right.trans_lt hm)

/-- Exclusive or with a 16-bit value may cut the other operand to 16 bits, or the result. -/
theorem xor_mod_of_lt {x : Nat} (y : Nat) (hx : x < 65536) : x ^^^ y % 65536 = (x ^^^ y) % 65536 :=
  calc x ^^^ y % 65536
      = x % 65536 ^^^ y % 65536 := by rw [Nat.mod_eq_of_lt hx]
    _ = (x ^^^ y) % 65536 := (Nat.xor_mod_two_pow (n := 16)).symm

theorem crcSwap_toNat (reg : Half) :
    (crcSwap reg).toNat = ((reg.toNat >>> 8) &&& 0x00FF) ||| ((reg.toNat <<< 8) &&& 0xFF00) := by
  simp [crcSwap, mod_and_of_lt]

theorem crcFoldHighNibble_toNat (reg : Half) :
    (crcFoldHighNibble reg).toNat = reg.toNat ^^^ ((reg.toNat &&& 0x00FF) >>> 4) := by
  simp [crcFoldHighNibble]

theorem crcFoldTwelve_toNat (reg : Half) :
    (crcFoldTwelve reg).toNat = (reg.toNat ^^^ ((reg.toNat <<< 8) <<< 4)) % 65536 := by
  rw [← xor_mod_of_lt _ reg.isLt]
  simp [crcFoldTwelve, ← BitVec.shiftLeft_add, ← Nat.shiftLeft_add]

theorem crcFoldFive_toNat (reg : Half) :
    (crcFoldFive reg).toNat = (reg.toNat ^^^ (((reg.toNat &&& 0x00FF) <<< 4) <<< 1)) % 65536 := by
  rw [← xor_mod_of_lt _ reg.isLt]
  simp [crcFoldFive, ← BitVec.shiftLeft_add, ← Nat.shiftLeft_add]

/-- The five sub-steps of R140 on unbounded numbers are the machine's step on its 16-bit register. -/
theorem crcStep_toNat (reg : Half) (b : Byte) : (crcStep reg b).toNat = crcStepR140 reg.toNat b.toNat := by
  simp only [crcStep, crcFoldFive_toNat, crcFoldTwelve_toNat, crcFoldHighNibble_toNat, BitVec.toNat_xor,
    crcSwap_toNat, crcStepR140, BitVec.toNat_setWidth]
  rw [Nat.mod_eq_of_lt (by omega : b.toNat < 2 ^ 16)]

theorem crc16_toNat (x : List Byte) (seed : Half) :
    (crc16 x seed).toNat = x.foldl (fun reg b => crcStepR140 reg b.toNat) seed.toNat := by
  induction x generalizing seed with
  | nil => rfl
  | cons b bs ih => rw [crc16_cons, ih, crcStep_toNat, List.foldl_cons]

/-- The checksum of R141 is the machine's. -/
theorem crcR141_eq_crc16 (x : List Byte) (seed : Half) : crcR141 x seed = crc16 x seed := by
  rw [crcR141, ← crc16_toNat, Nat.mod_eq_of_lt (crc16 x seed).isLt, BitVec.ofNat_toNat, BitVec.setWidth_eq]

end Sys2Proof.Machine
end

section
/-! PROOFS. The spec's decoding loop with its variables (40_stuffing.md R101) is the machine's decoder, and the STATUS
it composes (R104) is SDEC's. -/

namespace Sys2Proof.Machine

/-- The variables of R101's loop after the decoder's run r from the variables q. -/
def loopAfterRun (q : LoopR101) (r : DecRun) : LoopR101 :=
  ⟨q.r ++ r.bytes, r.trailesc, q.term || r.term, q.badesc || r.badesc, q.i + r.read⟩

/-- R101's loop goes through the bytes as the decoder does. -/
theorem runLoopR101_eq (c : Cfg) (x : List Byte) (q : LoopR101) :
    runLoopR101 c x q = loopAfterRun q (decLoop c q.escaping x) := by
  induction x generalizing q with
  | nil => simp [runLoopR101, decLoop, loopAfterRun]
  | cons b bs ih =>
    obtain ⟨r, escaping, term, badesc, i⟩ := q
    cases escaping with
    | true =>
      simp only [runLoopR101, decLoop, ih, if_true]
      split_ifs <;> simp [loopAfterRun, Nat.add_assoc, Nat.add_comm 1]
    | false =>
      simp only [runLoopR101, decLoop, ih]
      split_ifs <;> simp_all [loopAfterRun, endOfFrame, Nat.add_assoc, Nat.add_comm 1]

/-- R101 from its first line on: the decoder's run from fresh variables. -/
theorem decodedR101_eq (c : Cfg) (x : List Byte) :
    decodedR101 c x = loopAfterRun ⟨[], false, false, false, 0⟩ (stuffDec c x).run := by
  cases x with
  | nil => rfl
  | cons b bs =>
    simp only [decodedR101, stuffDec, runLoopR101_eq]
    split <;> simp [loopAfterRun, Nat.add_comm 1]

theorem noleadR101_eq (c : Cfg) (x : List Byte) : noleadR101 c x = (stuffDec c x).nolead := by
  cases x with
  | nil => rfl
  | cons b bs =>
    simp only [noleadR101, stuffDec]
    split <;> simp_all

/-- R104's shifts of the four flags, joined, are the machine's STATUS value. -/
theorem decStatus_eq_ofNat (term badesc trailesc nolead : Bool) :
    decStatus term badesc trailesc nolead =
      BitVec.ofNat 16 (bitR104 nolead 7 ||| bitR104 trailesc 6 ||| bitR104 badesc 5 ||| bitR104 term 4) := by
  revert term badesc trailesc nolead
  decide

/-- The STATUS of R104 is the one SDEC writes. -/
theorem statusR104_eq_sdecStatus (c : Cfg) (x : List Byte) : statusR104 c x = sdecStatus (stuffDec c x) := by
  simp only [statusR104, sdecStatus, decStatus_eq_ofNat, decodedR101_eq, noleadR101_eq, loopAfterRun, Bool.false_or]

end Sys2Proof.Machine
end

section
/-! PROOFS. What the shared operations and the steps can do to the block's registers, said once. -/

namespace Sys2Proof.Machine

/-- DFUFRM tests its payload's length first, and otherwise advances SEQ and emits the frame (42_dfu_frame.md R161). -/
theorem exec_dfufrm_cases {s t : State} (h : exec .dfufrm s = .next t) :
    (lenMax < s.input.length ∧ t = raiseError .len s) ∨
    (s.input.length ≤ lenMax ∧
      t = writeSeq (s.seq + 1) (complete statusOk (dfuFrame (s.seq + 1) s.input) s.input.length s)) := by
  simp only [exec, execDfufrm] at h
  split at h
  case isTrue hlong => exact .inl ⟨hlong, (Host.Outcome.next.inj h).symm⟩
  case isFalse hshort => exact .inr ⟨Nat.le_of_not_lt hshort, (Host.Outcome.next.inj h).symm⟩

/-- A command raises an error, or writes the STATUS that its kind of command writes (10_state.md R27). -/
theorem exec_status {i : Instr} {s t : State} (h : exec i s = .next t) :
    (∃ e, t = raiseError e s) ∨
    (i = .sdec ∧ t.status = sdecStatus (stuffDec s.cfg s.input)) ∨ (i ≠ .sdec ∧ t.status = statusOk) := by
  cases i with
  | senc | sencw =>
    rcases underLegalCfg_cases h with ⟨-, rfl⟩ | ⟨-, rfl⟩
    · exact .inr (.inr ⟨nofun, rfl⟩)
    · exact .inl ⟨_, rfl⟩
  | sdec =>
    rcases underLegalCfg_cases h with ⟨-, rfl⟩ | ⟨-, rfl⟩
    · exact .inr (.inl ⟨rfl, rfl⟩)
    · exact .inl ⟨_, rfl⟩
  | dfufrm =>
    rcases exec_dfufrm_cases h with ⟨-, rfl⟩ | ⟨-, rfl⟩
    · exact .inl ⟨_, rfl⟩
    · exact .inr (.inr ⟨nofun, rfl⟩)
  | crc16 seed | wrcfg f v =>
    obtain rfl := Host.Outcome.next.inj h
    exact .inr (.inr ⟨nofun, rfl⟩)

/-- An error's STATUS is one of the three values of 60_exceptions.md R220. -/
theorem errCode_eq_or (e : Err) : errCode e = 0x0001 ∨ errCode e = 0x0002 ∨ errCode e = 0x0004 := by
  cases e <;> decide

theorem step_of_reset {s : State} {rest : List HostAction} (h : s.pending = .reset :: rest) :
    step s = .next (hostReset (popAction rest s)) := by
  unfold step; rw [h]

/-- SEQ, CFG and RESULT survive every step but that of a legal command word and reset. -/
theorem step_register_cases {s t : State} (h : step s = .next t) :
    (t.seq = s.seq ∧ t.cfg = s.cfg ∧ t.result = s.result) ∨
    (∃ i bytes rest, s.pending = .command (encode i) bytes :: rest ∧ exec i (issued bytes rest s) = .next t) ∨
    (∃ rest, s.pending = .reset :: rest ∧ t = hostReset (popAction rest s)) := by
  rcases step_cases h with ⟨-, rfl⟩ | ⟨w, bytes, rest, hp, hrun⟩ | ⟨n, rest, -, hread⟩ | ⟨rest, hp, rfl⟩
  · exact .inl ⟨rfl, rfl, rfl⟩
  · obtain ⟨-, ⟨i, hdec, hexec⟩ | ⟨-, rfl⟩⟩ := runCommand_cases hrun
    · exact .inr (.inl ⟨i, bytes, rest, by rw [hp, encode_of_decode hdec], hexec⟩)
    · exact .inl ⟨rfl, rfl, rfl⟩
  · obtain ⟨-, -, -, -, rfl⟩ := readPort_cases hread
    exact .inl ⟨rfl, rfl, rfl⟩
  · exact .inr (.inr ⟨rest, hp, rfl⟩)

end Sys2Proof.Machine
end

section
/-! PROOFS. The invariant Settled (10_state.md R26, R33, 60_exceptions.md R221): one rule for each operation, then the
command, reset and the step. -/

namespace Sys2Proof.Machine

/-- Settled speaks of STATUS, IN, OUT and the bytes read only. -/
theorem Settled.congr {s t : State} (hs : Settled s) (hstatus : t.status = s.status) (hinput : t.input = s.input)
    (houtput : t.output = s.output) (hconsumed : t.consumed = s.consumed) : Settled t where
  status := hstatus ▸ hs.status
  inputGone := hinput ▸ hs.inputGone
  errorSilent herr := by
    rw [houtput, hconsumed]
    exact hs.errorSilent (hstatus ▸ herr)

theorem settled_raiseError (e : Err) (s : State) : Settled (raiseError e s) where
  status := (by cases e <;> decide : statusAllowed (errCode e) = true)
  inputGone := rfl
  errorSilent _ := ⟨rfl, rfl⟩

/-- A command that completes without an error may put out and read what it likes. -/
theorem settled_complete {st : Half} (hallowed : statusAllowed st = true) (hok : isErrorStatus st = false)
    (out : List Byte) (read : Nat) (s : State) : Settled (complete st out read s) where
  status := hallowed
  inputGone := rfl
  errorSilent herr := by simp [hok] at herr

theorem settled_complete_statusOk (out : List Byte) (read : Nat) (s : State) :
    Settled (complete statusOk out read s) :=
  settled_complete (by decide) (by decide) out read s

/-- Input cannot both end at a delimiter and end in an escape (40_stuffing.md R108). -/
theorem stuffDec_term_trailesc (c : Cfg) (x : List Byte) :
    ((stuffDec c x).run.term && (stuffDec c x).run.trailesc) = false := by
  cases x with
  | nil => rfl
  | cons b bs =>
    simp only [stuffDec]
    split
    · exact decLoop_term_trailesc c false bs
    · exact decLoop_term_trailesc c false (b :: bs)

/-- DEC bits are no error's value. -/
theorem isErrorStatus_decStatus (term badesc trailesc nolead : Bool) :
    isErrorStatus (decStatus term badesc trailesc nolead) = false := by
  revert term badesc trailesc nolead
  decide

/-- DEC bits are allowed when TERM and TRAILESC are not both set. -/
theorem statusAllowed_decStatus {term trailesc : Bool} (badesc nolead : Bool) (hexcl : (term && trailesc) = false) :
    statusAllowed (decStatus term badesc trailesc nolead) = true := by
  revert term badesc trailesc nolead
  decide

theorem settled_complete_sdecStatus (c : Cfg) (x out : List Byte) (read : Nat) (s : State) :
    Settled (complete (sdecStatus (stuffDec c x)) out read s) :=
  settled_complete (statusAllowed_decStatus _ _ (stuffDec_term_trailesc c x)) (isErrorStatus_decStatus _ _ _ _)
    out read s

/-- Every command leaves a settled state, whatever state it began in: it writes all that Settled speaks of. -/
theorem exec_settled {i : Instr} {s t : State} (h : exec i s = .next t) : Settled t := by
  rcases exec_cases h with
    ⟨e, rfl, -⟩ | ⟨st, out, n, rfl, rfl | ⟨d, rfl, rfl⟩⟩ | ⟨seed, -, rfl⟩ | ⟨-, -, rfl⟩ | ⟨f, v, -, rfl⟩
  case inl => exact settled_raiseError e s
  case inr.inl.inl => exact settled_complete_statusOk out n s
  case inr.inl.inr => exact settled_complete_sdecStatus s.cfg s.input out n s
  all_goals exact (settled_complete_statusOk _ _ s).congr rfl rfl rfl rfl

theorem settled_hostReset (s : State) : Settled (hostReset s) where
  status := (by decide : statusAllowed 0x0000 = true)
  inputGone := rfl
  errorSilent _ := ⟨rfl, rfl⟩

/-- A register read changes nothing that Settled speaks of. -/
theorem readPort_settled {n : Nat} {s t : State} (hs : Settled s) (h : readPort n s = .next t) : Settled t := by
  obtain ⟨-, -, -, -, rfl⟩ := readPort_cases h
  exact hs.congr rfl rfl rfl rfl

theorem runCommand_settled {w : Word} {bytes : List Byte} {rest : List HostAction} {s t : State}
    (h : runCommand w bytes rest s = .next t) : Settled t := by
  obtain ⟨-, ⟨i, -, hexec⟩ | ⟨-, rfl⟩⟩ := runCommand_cases h
  · exact exec_settled hexec
  · exact settled_raiseError .illegal _

/-- Settles O51: a command and reset write all that the invariant speaks of, waiting and a register read none of it. -/
theorem stepKeepsSettled : Obligations.StepKeepsSettled := by
  intro s t hs h
  rcases step_cases h with ⟨-, rfl⟩ | ⟨w, bytes, rest, -, hrun⟩ | ⟨n, rest, -, hread⟩ | ⟨rest, -, rfl⟩
  · exact hs
  · exact runCommand_settled hrun
  · exact readPort_settled (s := popAction rest s) (hs.congr rfl rfl rfl rfl) hread
  · exact settled_hostReset _

/-- Settles O52: the state after reset is what the reset action makes of it. -/
theorem resetIsSettled : Obligations.ResetIsSettled := settled_hostReset State.reset

end Sys2Proof.Machine
end

section
/-! PROOFS. The registers SEQ, CFG, RESULT and STATUS: who writes them, and what reset gives them (10_state.md R20 to
R29, R35). -/

namespace Sys2Proof.Machine

/-- Settles O42: of the commands only a DFUFRM within LEN_MAX writes SEQ, with the next number. -/
theorem onlyDfufrmAndResetWriteSeq : Obligations.OnlyDfufrmAndResetWriteSeq := by
  intro s t h
  rcases step_register_cases h with ⟨hseq, -, -⟩ | ⟨i, bytes, rest, hp, hexec⟩ | ⟨rest, hp, rfl⟩
  · exact .inl hseq
  · rcases exec_cases hexec with
      ⟨e, rfl, -⟩ | ⟨st, out, n, rfl, -⟩ | ⟨seed, -, rfl⟩ | ⟨rfl, hlen, rfl⟩ | ⟨f, v, -, rfl⟩
    case inr.inr.inr.inl => exact .inr (.inl ⟨bytes, rest, hp, hlen, BitVec.toNat_add s.seq 1⟩)
    all_goals exact .inl rfl
  · exact .inr (.inr ⟨rest, hp, rfl⟩)

/-- Settles O43: of the commands only WRCFG writes CFG, the one field it names. -/
theorem onlyWrcfgAndResetWriteCfg : Obligations.OnlyWrcfgAndResetWriteCfg := by
  intro s t h
  rcases step_register_cases h with ⟨-, hcfg, -⟩ | ⟨i, bytes, rest, hp, hexec⟩ | ⟨rest, hp, rfl⟩
  · exact .inl hcfg
  · rcases exec_cases hexec with
      ⟨e, rfl, -⟩ | ⟨st, out, n, rfl, -⟩ | ⟨seed, -, rfl⟩ | ⟨-, -, rfl⟩ | ⟨f, v, rfl, rfl⟩
    case inr.inr.inr.inr =>
      exact .inr (.inl ⟨f, v, bytes, rest, hp, cfgField_setCfgField s.cfg f v,
        fun g hg => cfgField_setCfgField_of_ne s.cfg v hg⟩)
    all_goals exact .inl rfl
  · exact .inr (.inr ⟨rest, hp, rfl⟩)

/-- Settles O44: of the commands only CRC16 writes RESULT, with the checksum of its IN. -/
theorem onlyCrc16AndResetWriteResult : Obligations.OnlyCrc16AndResetWriteResult := by
  intro s t h
  rcases step_register_cases h with ⟨-, -, hresult⟩ | ⟨i, bytes, rest, hp, hexec⟩ | ⟨rest, hp, rfl⟩
  · exact .inl hresult
  · rcases exec_cases hexec with
      ⟨e, rfl, -⟩ | ⟨st, out, n, rfl, -⟩ | ⟨seed, rfl, rfl⟩ | ⟨-, -, rfl⟩ | ⟨f, v, -, rfl⟩
    case inr.inr.inl => exact .inr (.inl ⟨seed, bytes, rest, hp, congrArg some (crcR141_eq_crc16 bytes seed).symm⟩)
    all_goals exact .inl rfl
  · exact .inr (.inr ⟨rest, hp, rfl⟩)

/-- No command reads STATUS before it overwrites it. -/
theorem exec_with_status (i : Instr) (s : State) (v : Half) : exec i { s with status := v } = exec i s := by
  cases i <;> rfl

theorem runCommand_with_status (w : Word) (bytes : List Byte) (rest : List HostAction) (s : State) (v : Half) :
    runCommand w bytes rest { s with status := v } = runCommand w bytes rest s := by
  have hadmits : admitsInput { s with status := v } bytes = admitsInput s bytes := rfl
  unfold runCommand
  rw [hadmits]
  split
  · cases decode w with
    | instr i => exact exec_with_status i (issued bytes rest s) v
    | illegal why => rfl
  · rfl

/-- A legal word other than SDEC's is not the number of SDEC's word. -/
theorem ne_sdecWord_of_decode {w : Word} {i : Instr} (h : decode w = .instr i) (hi : i ≠ .sdec) :
    w ≠ 0x00000003#32 := by
  rintro rfl
  exact hi (Decoded.instr.inj (h.symm.trans (by decide)))

/-- Settles O45: no command reads the old STATUS, and the new one is the error's, SDEC's or zero. -/
theorem statusDescribesTheLastCommand : Obligations.StatusDescribesTheLastCommand := by
  intro s w bytes rest hp
  refine ⟨fun v => ?_, fun t h => ?_⟩
  · rw [step_of_command hp, step_of_command (s := { s with status := v }) hp, runCommand_with_status]
  · rw [step_of_command hp] at h
    obtain ⟨-, ⟨i, hdec, hexec⟩ | ⟨-, rfl⟩⟩ := runCommand_cases h
    · rcases exec_status hexec with ⟨e, rfl⟩ | ⟨rfl, hstatus⟩ | ⟨hi, hstatus⟩
      · exact .inl (errCode_eq_or e)
      · exact .inr (.inl ⟨(encode_of_decode hdec).symm, hstatus.trans (statusR104_eq_sdecStatus _ _).symm⟩)
      · exact .inr (.inr ⟨ne_sdecWord_of_decode hdec hi, hstatus⟩)
    · exact .inl (errCode_eq_or .illegal)

/-- Settles O12: the reset action writes every register, from any state. -/
theorem resetSetsEveryRegister : Obligations.ResetSetsEveryRegister := by
  refine ⟨fun s rest hp => ⟨_, step_of_reset hp, ?_⟩, ?_⟩
  · exact ⟨rfl, rfl, rfl, rfl, rfl, rfl, rfl, by simp [portValue, cfgWord]⟩
  · exact ⟨rfl, rfl, rfl, rfl, rfl, rfl⟩

end Sys2Proof.Machine
end

section
/-! PROOFS. What a command depends on and what it leaves unchanged (10_state.md R33, R20, R27, R29). -/

namespace Sys2Proof.Machine

/-- From s and from s', the two outcomes are next states that agree on all a command may write, where RESULT may also
be the old one in both. -/
def AnswersAlike (s s' : State) (o o' : Host.Outcome State Fault Refusal) : Prop :=
  ∃ t t', o = .next t ∧ o' = .next t' ∧
    t.output = t'.output ∧ t.status = t'.status ∧ t.seq = t'.seq ∧ t.cfg = t'.cfg ∧ t.consumed = t'.consumed ∧
    (t.result = t'.result ∨ (t.result = s.result ∧ t'.result = s'.result))

section
variable {s s' : State} (hinput : s.input = s'.input) (hseq : s.seq = s'.seq) (hcfg : s.cfg = s'.cfg)
include hseq hcfg

theorem answersAlike_complete (st : Half) (out : List Byte) (read : Nat) :
    AnswersAlike s s' (.next (complete st out read s)) (.next (complete st out read s')) :=
  ⟨_, _, rfl, rfl, rfl, rfl, hseq, hcfg, rfl, .inr ⟨rfl, rfl⟩⟩

theorem answersAlike_underLegalCfg (st : Half) (out : List Byte) (read : Nat) :
    AnswersAlike s s' (underLegalCfg s (complete st out read s)) (underLegalCfg s' (complete st out read s')) := by
  unfold underLegalCfg
  rw [← hcfg]
  split
  · exact answersAlike_complete hseq hcfg st out read
  · exact answersAlike_complete hseq hcfg (errCode .cfg) [] 0

include hinput

/-- Each command computes what it writes from IN, SEQ and CFG. -/
theorem exec_answersAlike (i : Instr) : AnswersAlike s s' (exec i s) (exec i s') := by
  cases i with
  | senc | sencw | sdec =>
    simp only [exec, execSenc, execSencw, execSdec, ← hinput, ← hcfg]
    exact answersAlike_underLegalCfg hseq hcfg _ _ _
  | crc16 seed =>
    simp only [exec, execCrc16, ← hinput]
    exact ⟨_, _, rfl, rfl, rfl, rfl, hseq, hcfg, rfl, .inl rfl⟩
  | dfufrm =>
    simp only [exec, execDfufrm, ← hinput, ← hseq]
    split
    · exact answersAlike_complete hseq hcfg (errCode .len) [] 0
    · exact ⟨_, _, rfl, rfl, rfl, rfl, rfl, hcfg, rfl, .inr ⟨rfl, rfl⟩⟩
  | wrcfg f v =>
    exact ⟨_, _, rfl, rfl, rfl, rfl, hseq, congrArg (setCfgField · f v) hcfg, rfl, .inr ⟨rfl, rfl⟩⟩

end

/-- Settles O48, command by command. -/
theorem commandDependsOnInputSeqAndCfgOnly : Obligations.CommandDependsOnInputSeqAndCfgOnly :=
  fun i _ _ hinput hseq hcfg => exec_answersAlike hinput hseq hcfg i

/-- Settles O50: an error and a plain completion write none of SEQ, CFG and RESULT, and each of CRC16, DFUFRM and WRCFG
writes its own register only. -/
theorem commandFrames : Obligations.CommandFrames := by
  intro i s t h
  rcases exec_cases h with
    ⟨e, rfl, -⟩ | ⟨st, out, n, rfl, -⟩ | ⟨seed, rfl, rfl⟩ | ⟨rfl, -, rfl⟩ | ⟨f, v, rfl, rfl⟩
  case inr.inr.inl => exact ⟨rfl, rfl, rfl, rfl, fun hi => absurd rfl (hi seed), fun _ => rfl, fun _ _ => rfl⟩
  case inr.inr.inr.inl => exact ⟨rfl, rfl, rfl, rfl, fun _ => rfl, fun hi => absurd rfl hi, fun _ _ => rfl⟩
  case inr.inr.inr.inr =>
    refine ⟨rfl, rfl, rfl, rfl, fun _ => rfl, fun _ => rfl, fun g hg => ?_⟩
    have hne : g ≠ f := fun hgf => hg v (by rw [hgf])
    exact cfgField_setCfgField_of_ne s.cfg v hne
  all_goals exact ⟨rfl, rfl, rfl, rfl, fun _ => rfl, fun _ => rfl, fun _ _ => rfl⟩

end Sys2Proof.Machine
end

section
/-! PROOFS. The issue of a command word, and the bound BUF_MAX (20_memory.md R52, R60, 60_exceptions.md R228). -/

namespace Sys2Proof.Machine

theorem admitsInput_of_unbounded {s : State} (h : s.bufMax = none) (bytes : List Byte) :
    admitsInput s bytes = true := by
  simp [admitsInput, h]

theorem admitsInput_of_too_long {s : State} {n : Nat} {bytes : List Byte} (h : s.bufMax = some n)
    (hlong : n < bytes.length) : admitsInput s bytes = false := by
  simp [admitsInput, h, hlong]

section
variable {s : State} {w : Word} {bytes : List Byte} {rest : List HostAction}

theorem runCommand_of_not_admitted (h : admitsInput s bytes = false) :
    runCommand w bytes rest s = .refused .inputTooLong := by
  simp [runCommand, h]

theorem runCommand_of_instr {i : Instr} (h : admitsInput s bytes = true) (hdec : decode w = .instr i) :
    runCommand w bytes rest s = exec i (issued bytes rest s) := by
  simp [runCommand, h, hdec]

theorem runCommand_of_illegal {why : IllegalCause} (h : admitsInput s bytes = true) (hdec : decode w = .illegal why) :
    runCommand w bytes rest s = .next (illegalWord (issued bytes rest s)) := by
  simp [runCommand, h, hdec]

/-- An admitted issue always has a step, be its word legal or not. -/
theorem runCommand_answers (h : admitsInput s bytes = true) : ∃ t, runCommand w bytes rest s = .next t := by
  cases hdec : decode w with
  | instr i =>
    rw [runCommand_of_instr h hdec]
    exact exec_answers i _
  | illegal why => exact ⟨_, runCommand_of_illegal h hdec⟩

end

/-- Settles O7: the state the command runs in is the one `issued` makes. -/
theorem stepRunsDecodedCommand : Obligations.StepRunsDecodedCommand := by
  intro s w bytes rest i hp hadmits hdec
  rw [step_of_command hp, runCommand_of_instr hadmits hdec]
  rfl

/-- Settles O9: whether an issue has a step is decided by its length before its word is looked at. -/
theorem issueBeyondBufMaxHasNoStep : Obligations.IssueBeyondBufMaxHasNoStep := by
  intro s w bytes rest hp
  rw [step_of_command hp]
  exact ⟨fun n hn hlong => runCommand_of_not_admitted (admitsInput_of_too_long hn hlong),
    fun hnone => runCommand_answers (admitsInput_of_unbounded hnone bytes)⟩

/-- Settles O53: the frame of every command has BUF_MAX in it, and no other action writes it. -/
theorem bufMaxIsConstant : Obligations.BufMaxIsConstant := by
  intro s t h
  rcases step_cases h with ⟨-, rfl⟩ | ⟨w, bytes, rest, -, hrun⟩ | ⟨n, rest, -, hread⟩ | ⟨rest, -, rfl⟩
  · rfl
  · obtain ⟨-, ⟨i, -, hexec⟩ | ⟨-, rfl⟩⟩ := runCommand_cases hrun
    · obtain ⟨-, -, hbufMax, -⟩ := commandFrames i _ t hexec
      exact hbufMax
    · rfl
  · obtain ⟨-, -, -, -, rfl⟩ := readPort_cases hread
    rfl
  · rfl

end Sys2Proof.Machine
end

section
/-! PROOFS. What each command answers when nothing stands against it: its completion, written out. -/

namespace Sys2Proof.Machine

/-- The check of CFG is R25's condition. -/
theorem cfgLegal_iff (c : Cfg) : cfgLegal c = true ↔ CfgIsLegal c := by
  simp [cfgLegal, CfgIsLegal]

theorem exec_senc_of_legal {s : State} (h : cfgLegal s.cfg = true) :
    exec .senc s = .next (complete statusOk (stuffEnc s.cfg s.input) s.input.length s) :=
  underLegalCfg_of_legal _ h

theorem exec_sencw_of_legal {s : State} (h : cfgLegal s.cfg = true) :
    exec .sencw s = .next (complete statusOk (wrapFrame s.cfg s.input) s.input.length s) :=
  underLegalCfg_of_legal _ h

theorem exec_sdec_of_legal {s : State} (h : cfgLegal s.cfg = true) :
    exec .sdec s = .next (complete (sdecStatus (stuffDec s.cfg s.input)) (stuffDec s.cfg s.input).run.bytes
      (stuffDec s.cfg s.input).run.read s) :=
  underLegalCfg_of_legal _ h

theorem exec_dfufrm_of_length_le {s : State} (h : s.input.length ≤ lenMax) :
    exec .dfufrm s =
      .next (writeSeq (s.seq + 1) (complete statusOk (dfuFrame (s.seq + 1) s.input) s.input.length s)) :=
  if_neg (Nat.not_lt.mpr h)

end Sys2Proof.Machine
end

section
/-! PROOFS. How far the decoder reads, and that it sees nothing beyond (40_stuffing.md R101, R106); how long what is
encoded can be (R100, 42_dfu_frame.md R160). -/

namespace Sys2Proof.Machine

/-- On one byte the loop ends, at an unescaped delimiter, or it reads the byte and goes on: which of the two, and how,
does not depend on the bytes behind it. -/
theorem decLoop_cons_cases (c : Cfg) (e : Bool) (b : Byte) :
    (b = c.delim ∧ ∀ ys, decLoop c e (b :: ys) = endOfFrame) ∨
    ∃ (f : DecRun → DecRun) (e' : Bool), (∀ ys, decLoop c e (b :: ys) = f (decLoop c e' ys)) ∧
      ∀ r, (f r).term = r.term ∧ (f r).read = r.read + 1 := by
  cases e with
  | true =>
    by_cases hdsub : b = c.dsub
    · exact .inr ⟨keepByte c.delim, false, fun ys => by simp [decLoop, hdsub], fun r => ⟨rfl, rfl⟩⟩
    by_cases hesub : b = c.esub
    · exact .inr ⟨keepByte c.esc, false, fun ys => by rw [decLoop, if_neg hdsub, if_pos hesub], fun r => ⟨rfl, rfl⟩⟩
    · exact .inr ⟨dropByte, false, fun ys => by simp [decLoop, hdsub, hesub], fun r => ⟨rfl, rfl⟩⟩
  | false =>
    by_cases hesc : b = c.esc
    · exact .inr ⟨skipByte, true, fun ys => by simp [decLoop, hesc], fun r => ⟨rfl, rfl⟩⟩
    by_cases hdelim : b = c.delim
    · exact .inl ⟨hdelim, fun ys => by rw [decLoop, if_neg hesc, if_pos hdelim]⟩
    · exact .inr ⟨keepByte b, false, fun ys => by simp [decLoop, hesc, hdelim], fun r => ⟨rfl, rfl⟩⟩

/-- A loop that ends at a delimiter reads up to and including it, and what stands behind makes no difference. -/
theorem decLoop_split_of_term (c : Cfg) (e : Bool) (x : List Byte) (h : (decLoop c e x).term = true) :
    ∃ p post, x = p ++ c.delim :: post ∧ (decLoop c e x).read = p.length + 1 ∧
      ∀ rest, decLoop c e (p ++ c.delim :: rest) = decLoop c e x := by
  induction x generalizing e with
  | nil => simp [decLoop] at h
  | cons b bs ih =>
    rcases decLoop_cons_cases c e b with ⟨rfl, hend⟩ | ⟨f, e', hstep, hf⟩
    · exact ⟨[], bs, rfl, by rw [hend]; rfl, fun rest => (hend rest).trans (hend bs).symm⟩
    · rw [hstep, (hf _).1] at h
      obtain ⟨p, post, rfl, hread, hbeyond⟩ := ih e' h
      refine ⟨b :: p, post, rfl, ?_, fun rest => ?_⟩
      · rw [hstep, (hf _).2, hread, List.length_cons]
      · rw [List.cons_append, hstep, hstep, hbeyond]

/-- The decoder strips a leading delimiter, or decodes from the first byte on. -/
theorem stuffDec_cases (c : Cfg) (x : List Byte) :
    (∃ ys, x = c.delim :: ys ∧ stuffDec c x = ⟨skipByte (decLoop c false ys), false⟩) ∨
    (x.head? ≠ some c.delim ∧ stuffDec c x = ⟨decLoop c false x, !x.isEmpty⟩) := by
  by_cases h : x.head? = some c.delim
  · obtain ⟨ys, rfl⟩ := List.head?_eq_some_iff.mp h
    exact .inl ⟨ys, rfl, stuffDec_delim_cons c ys⟩
  · exact .inr ⟨h, stuffDec_of_head_ne c x h⟩

/-- The decoder keeps no more bytes than it reads, and reads no more than there are. -/
theorem stuffDec_length_le (c : Cfg) (x : List Byte) :
    (stuffDec c x).run.bytes.length ≤ (stuffDec c x).run.read ∧ (stuffDec c x).run.read ≤ x.length := by
  rcases stuffDec_cases c x with ⟨ys, rfl, hdec⟩ | ⟨-, hdec⟩
  · obtain ⟨hbytes, hread⟩ := decLoop_length_le c false ys
    rw [hdec]
    exact ⟨Nat.le_succ_of_le hbytes, Nat.succ_le_succ hread⟩
  · rw [hdec]
    exact decLoop_length_le c false x

/-- Input with no end of frame in it is read whole. -/
theorem stuffDec_read_of_not_term (c : Cfg) (x : List Byte) (h : (stuffDec c x).run.term = false) :
    (stuffDec c x).run.read = x.length := by
  rcases stuffDec_cases c x with ⟨ys, rfl, hdec⟩ | ⟨-, hdec⟩ <;> rw [hdec] at h ⊢
  · exact congrArg (· + 1) (decLoop_read_of_not_term c false ys h)
  · exact decLoop_read_of_not_term c false x h

/-- The end of a frame is at a delimiter, which is the last byte read, and the bytes behind it make no difference. -/
theorem stuffDec_split_of_term (c : Cfg) (x : List Byte) (h : (stuffDec c x).run.term = true) :
    ∃ p post, x = p ++ c.delim :: post ∧ (stuffDec c x).run.read = p.length + 1 ∧
      ∀ rest, stuffDec c (p ++ c.delim :: rest) = stuffDec c x := by
  rcases stuffDec_cases c x with ⟨ys, rfl, hdec⟩ | ⟨hhead, hdec⟩ <;> rw [hdec] at h ⊢
  · obtain ⟨p, post, rfl, hread, hbeyond⟩ := decLoop_split_of_term c false ys h
    refine ⟨c.delim :: p, post, rfl, congrArg (· + 1) hread, fun rest => ?_⟩
    rw [List.cons_append, stuffDec_delim_cons, hbeyond]
  · obtain ⟨p, post, rfl, hread, hbeyond⟩ := decLoop_split_of_term c false x h
    refine ⟨p, post, rfl, hread, fun rest => ?_⟩
    cases p with
    | nil => exact absurd rfl hhead
    | cons b p' => rw [stuffDec_of_head_ne c (b :: p' ++ c.delim :: rest) hhead, hbeyond]; rfl

/-- Encoding at most doubles the length. -/
theorem stuffEnc_length_le (c : Cfg) (x : List Byte) : (stuffEnc c x).length ≤ 2 * x.length := by
  induction x with
  | nil => rfl
  | cons b bs ih =>
    have hbyte : (stuffByte c b).length ≤ 2 := by rw [stuffByte_length]; split <;> decide
    simp only [stuffEnc_cons, List.length_append, List.length_cons]
    omega

theorem wrapFrame_length_le (c : Cfg) (body : List Byte) : (wrapFrame c body).length ≤ 2 * body.length + 2 := by
  have hbody := stuffEnc_length_le c body
  simp only [wrapFrame, List.length_cons, List.length_append, List.length_nil]
  omega

/-- Four bytes of header before the payload and two of CRC after it. -/
theorem dfuBody_length (seq : BitVec 3) (payload : List Byte) : (dfuBody seq payload).length = payload.length + 6 := by
  simp [dfuBody, dfuCovered, dfuHeader, le16]

end Sys2Proof.Machine
end

section
/-! PROOFS. The input and output sequences: how far IN is read, and how long OUT is (20_memory.md R51, R53). -/

namespace Sys2Proof.Machine

/-- No command reads OUT before it overwrites it. -/
theorem exec_with_output (i : Instr) (s : State) (x : List Byte) : exec i { s with output := x } = exec i s := by
  cases i <;> rfl

/-- A bound on what a command puts out under a legal CFG is one on its OUT: ErrCfg leaves OUT empty. -/
theorem output_length_le_of_underLegalCfg {s t : State} {st : Half} {out : List Byte} {read n : Nat}
    (h : underLegalCfg s (complete st out read s) = .next t) (hout : out.length ≤ n) : t.output.length ≤ n := by
  rcases underLegalCfg_cases h with ⟨-, rfl⟩ | ⟨-, rfl⟩
  · exact hout
  · exact Nat.zero_le n

theorem exec_senc_output_length {s t : State} (h : exec .senc s = .next t) :
    t.output.length ≤ 2 * s.input.length :=
  output_length_le_of_underLegalCfg h (stuffEnc_length_le s.cfg s.input)

theorem exec_sencw_output_length {s t : State} (h : exec .sencw s = .next t) :
    t.output.length ≤ 2 * s.input.length + 2 :=
  output_length_le_of_underLegalCfg h (wrapFrame_length_le s.cfg s.input)

theorem exec_sdec_output_length {s t : State} (h : exec .sdec s = .next t) : t.output.length ≤ s.input.length := by
  obtain ⟨hbytes, hread⟩ := stuffDec_length_le s.cfg s.input
  exact output_length_le_of_underLegalCfg h (hbytes.trans hread)

theorem exec_dfufrm_output_length {s t : State} (h : exec .dfufrm s = .next t) :
    t.output.length ≤ 2 * (s.input.length + 6) + 2 := by
  rcases exec_dfufrm_cases h with ⟨-, rfl⟩ | ⟨-, rfl⟩
  · exact Nat.zero_le _
  · have hframe := wrapFrame_length_le dfuCodec (dfuBody (s.seq + 1) s.input)
    rwa [dfuBody_length] at hframe

/-- The three values of 60_exceptions.md R220 are the errors' values. -/
theorem isErrorStatus_of_eq_or {v : Half} (h : v = 0x0001 ∨ v = 0x0002 ∨ v = 0x0004) : isErrorStatus v = true := by
  rcases h with rfl | rfl | rfl <;> decide

/-- Settles O26: the bounds command by command; that an error is silent is part of what every command leaves settled. -/
theorem outputBounds : Obligations.OutputBounds := by
  intro i s t h
  refine ⟨fun x => (exec_with_output i s x).trans h, fun herr => ?_, ?_, ?_, ?_, ?_, ?_, ?_⟩
  · exact ((exec_settled h).errorSilent (isErrorStatus_of_eq_or herr)).1
  · rintro rfl; exact exec_senc_output_length h
  · rintro rfl; exact exec_sencw_output_length h
  · rintro rfl; exact exec_sdec_output_length h
  · rintro seed rfl; obtain rfl := Host.Outcome.next.inj h; rfl
  · rintro rfl; exact exec_dfufrm_output_length h
  · rintro f v rfl; obtain rfl := Host.Outcome.next.inj h; rfl

/-- SDEC sees of IN only what the decoder makes of it. -/
theorem exec_sdec_with_input {s : State} {x : List Byte} (h : stuffDec s.cfg x = stuffDec s.cfg s.input) :
    exec .sdec { s with input := x } = exec .sdec s := by
  simp only [exec, execSdec, h]
  rfl

/-- SDEC reads up to its first unescaped delimiter or to the end, and nothing beyond. -/
theorem exec_sdec_reads {s : State} (hlegal : cfgLegal s.cfg = true) :
    ∃ t, exec .sdec s = .next t ∧ t.consumed ≤ s.input.length ∧
      (decTermBit t.status = false → t.consumed = s.input.length) ∧
      (decTermBit t.status = true → s.input[t.consumed - 1]? = some s.cfg.delim ∧
        ∀ rest, exec .sdec { s with input := s.input.take t.consumed ++ rest } = .next t) := by
  have hterm : decTermBit (sdecStatus (stuffDec s.cfg s.input)) = (stuffDec s.cfg s.input).run.term :=
    (decStatus_bits _ _ _ _).1
  refine ⟨_, exec_sdec_of_legal hlegal, (stuffDec_length_le _ _).2, ?_, ?_⟩ <;>
    simp only [complete_status, complete_consumed, hterm]
  · exact stuffDec_read_of_not_term _ _
  · intro h
    obtain ⟨p, post, hinput, hread, hbeyond⟩ := stuffDec_split_of_term _ _ h
    have htake : s.input.take (stuffDec s.cfg s.input).run.read = p ++ [s.cfg.delim] := by
      rw [hread, hinput, List.take_append]; simp
    refine ⟨by rw [hread, hinput]; simp, fun rest => ?_⟩
    rw [htake, List.append_assoc]
    exact (exec_sdec_with_input (hbeyond rest)).trans (exec_sdec_of_legal hlegal)

/-- Settles O27: each count is the one the command completes with. -/
theorem howFarInputIsRead : Obligations.HowFarInputIsRead := by
  intro s
  refine ⟨fun hc => ?_, fun hc => ?_, fun seed => ⟨_, rfl, rfl⟩, fun hlen => ?_, fun f v x => ⟨_, rfl, rfl, rfl⟩,
    fun hc => exec_sdec_reads ((cfgLegal_iff _).mpr hc)⟩
  · exact ⟨_, exec_senc_of_legal ((cfgLegal_iff _).mpr hc), rfl⟩
  · exact ⟨_, exec_sencw_of_legal ((cfgLegal_iff _).mpr hc), rfl⟩
  · exact ⟨_, exec_dfufrm_of_length_le hlen, rfl⟩

end Sys2Proof.Machine
end

section
/-! PROOFS. A command issued again with the same IN (20_memory.md R58). -/

namespace Sys2Proof.Machine

/-- Every command but DFUFRM computes the same again: it writes no operand of its own but the CFG field of a WRCFG, and
that with the same value. -/
theorem exec_again {i : Instr} (s : State) (hi : i ≠ .dfufrm) :
    ∃ t, exec i s = .next t ∧ exec i { t with input := s.input } = .next t ∧ t.seq = s.seq ∧
      ((∀ f v, i ≠ .wrcfg f v) → t.cfg = s.cfg) := by
  cases i with
  | senc | sencw | sdec =>
    cases hlegal : cfgLegal s.cfg with
    | true =>
      exact ⟨_, underLegalCfg_of_legal _ hlegal, underLegalCfg_of_legal _ hlegal, rfl, fun _ => rfl⟩
    | false =>
      exact ⟨_, underLegalCfg_of_illegal _ hlegal, underLegalCfg_of_illegal _ hlegal, rfl, fun _ => rfl⟩
  | crc16 seed => exact ⟨_, rfl, rfl, rfl, fun _ => rfl⟩
  | dfufrm => exact absurd rfl hi
  | wrcfg f v =>
    refine ⟨_, rfl, ?_, rfl, fun hother => absurd rfl (hother f v)⟩
    simp [exec, execWrcfg, writeCfgField, complete]

/-- The next sequence number is another one. -/
theorem seq_add_one_ne (v : BitVec 3) : v + 1 ≠ v := by
  revert v; decide

/-- Settles O49: all but DFUFRM by `exec_again`; a second DFUFRM advances SEQ once more. -/
theorem commandsButDfufrmAreIdempotent : Obligations.CommandsButDfufrmAreIdempotent :=
  ⟨fun _ s hi => exec_again s hi,
    fun _ hlen => ⟨_, _, exec_dfufrm_of_length_le hlen, exec_dfufrm_of_length_le hlen, seq_add_one_ne _⟩⟩

end Sys2Proof.Machine
end

section
/-! PROOFS. Every command has a word, and its encoding is that word (30_encoding.md R71, R75, R78). -/

namespace Sys2Proof

/-! The fields of a word put together from an IMM, a SEL and an OP -/

@[simp] theorem opOf_append (imm : Half) (sel op : Byte) : opOf (imm ++ sel ++ op) = op :=
  BitVec.extractLsb'_append_eq_right

@[simp] theorem selOf_append (imm : Half) (sel op : Byte) : selOf (imm ++ sel ++ op) = sel := by
  rw [selOf, BitVec.extractLsb'_append_eq_of_le (le_refl 8)]
  exact BitVec.extractLsb'_append_eq_right

@[simp] theorem immOf_append (imm : Half) (sel op : Byte) : immOf (imm ++ sel ++ op) = imm := by
  rw [immOf, BitVec.extractLsb'_append_eq_of_le (by decide)]
  exact BitVec.extractLsb'_append_eq_left

/-- Bits put together determine their two parts. -/
theorem bitVec_append_inj {m n : Nat} (a c : BitVec m) (b d : BitVec n) : a ++ b = c ++ d ↔ a = c ∧ b = d := by
  refine ⟨fun h => ⟨?_, ?_⟩, fun ⟨hac, hbd⟩ => by rw [hac, hbd]⟩
  · simpa only [BitVec.extractLsb'_append_eq_left] using congrArg (BitVec.extractLsb' n m) h
  · simpa only [BitVec.extractLsb'_append_eq_right] using congrArg (BitVec.extractLsb' 0 n) h

/-- IMM byte by byte: w[31:24] above, WRCFG's value below (30_encoding.md R73). -/
theorem immOf_eq_append_iff (w : Word) (reserved value : Byte) :
    immOf w = reserved ++ value ↔ reservedOf w = reserved ∧ valueOf w = value := by
  rw [immOf_eq_append, bitVec_append_inj]

/-- A word of the command, put together from the fields its decoding reads. -/
theorem exists_decodesAs (i : Instr) : ∃ w, DecodesAs w i := by
  cases i with
  | senc | sencw | sdec | crc16 seed | dfufrm => exact ⟨_, opOf_append .., selOf_append .., immOf_append ..⟩
  | wrcfg f v =>
    exact ⟨(0#8 ++ v) ++ selOfField f ++ 0x06#8, opOf_append .., selOf_append ..,
      (immOf_eq_append_iff _ _ _).mp (immOf_append ..)⟩

/-- Some word decodes to the command, and that word is the command's encoding. -/
@[simp] theorem decode_encode (i : Instr) : decode (encode i) = .instr i := by
  obtain ⟨w, hw⟩ := exists_decodesAs i
  have hdec : decode w = .instr i := (decode_eq_instr_iff w i).mpr hw
  rwa [encode_of_decode hdec]

/-- Settles O1: every command has a word, which is its encoding. -/
theorem decodeEncodeAgree : Obligations.DecodeEncodeAgree := decode_encode

/-- Settles O2: the fields that decoding reads are the whole word. -/
theorem encodeDecodeAgree : Obligations.EncodeDecodeAgree := fun _ _ => encode_of_decode

end Sys2Proof
end

section
/-! PROOFS. The legal words: R75's conditions, its match and mask rows and the check of a word's fields all accept the
words that decode (30_encoding.md R71, R75, R77, R80). -/

namespace Sys2Proof
open Machine

/-- Something holds of a command exactly when it holds of one of the six. -/
theorem exists_instr_iff (P : Instr → Prop) :
    (∃ i, P i) ↔ P .senc ∨ P .sencw ∨ P .sdec ∨ (∃ seed, P (.crc16 seed)) ∨ P .dfufrm ∨ ∃ f v, P (.wrcfg f v) := by
  constructor
  · rintro ⟨i, hi⟩
    cases i with
    | senc => exact .inl hi
    | sencw => exact .inr (.inl hi)
    | sdec => exact .inr (.inr (.inl hi))
    | crc16 seed => exact .inr (.inr (.inr (.inl ⟨seed, hi⟩)))
    | dfufrm => exact .inr (.inr (.inr (.inr (.inl hi))))
    | wrcfg f v => exact .inr (.inr (.inr (.inr (.inr ⟨f, v, hi⟩))))
  · rintro (h | h | h | ⟨_, h⟩ | h | ⟨_, _, h⟩) <;> exact ⟨_, h⟩

/-- A SEL names a CFG field exactly up to 3 (30_encoding.md R74). -/
theorem exists_selOfField_iff (sel : Byte) : (∃ f, sel = selOfField f) ↔ sel.toNat ≤ 3 := by
  simp only [← fieldOfSel_eq_some_iff]
  rw [← not_lt, ← fieldOfSel_eq_none_iff, ← ne_eq, Option.ne_none_iff_exists']

/-! Conditions on the fields -/

/-- R75's condition on a word, in terms of its fields. -/
theorem wordLegal_iff (w : Word) :
    WordLegal w ↔
      ((opOf w = 0x01#8 ∨ opOf w = 0x02#8 ∨ opOf w = 0x03#8 ∨ opOf w = 0x05#8) ∧ selOf w = 0#8 ∧ immOf w = 0#16) ∨
      (opOf w = 0x04#8 ∧ selOf w = 0#8) ∨ (opOf w = 0x06#8 ∧ (selOf w).toNat ≤ 3 ∧ reservedOf w = 0#8) := Iff.rfl

/-- The words that decode are the legal ones, in R75's form by fields. -/
theorem exists_decode_iff_wordLegal (w : Word) : (∃ i, decode w = .instr i) ↔ WordLegal w := by
  simp only [decode_eq_instr_iff, exists_instr_iff, DecodesAs, exists_and_left, exists_and_right, exists_eq', and_true,
    wordLegal_iff, exists_selOfField_iff]
  tauto

/-- WRCFG's reserved byte is 0 exactly when IMM holds a byte value (30_encoding.md R71, R73). -/
theorem immOf_toNat_lt_iff (w : Word) : (immOf w).toNat < 256 ↔ reservedOf w = 0#8 := by
  have hvalue : (valueOf w).toNat < 2 ^ 8 := (valueOf w).isLt
  rw [immOf_eq_append, BitVec.toNat_append, ← Nat.shiftLeft_add_eq_or_of_lt hvalue, Nat.shiftLeft_eq, BitVec.toNat_eq]
  simp only [BitVec.toNat_ofNat]
  omega

/-- The check of WellFormed.lean, opcode by opcode. -/
theorem Fields.legal_iff (f : Fields) :
    f.legal = true ↔
      ((f.op = 0x01#8 ∨ f.op = 0x02#8 ∨ f.op = 0x03#8 ∨ f.op = 0x05#8) ∧ f.sel = 0#8 ∧ f.imm = 0#16) ∨
      (f.op = 0x04#8 ∧ f.sel = 0#8) ∨ (f.op = 0x06#8 ∧ f.sel.toNat ≤ 3 ∧ f.imm.toNat < 256) := by
  simp only [Fields.legal, Fields.opAssigned, Fields.selAllowed, Fields.immAllowed]
  by_cases h4 : f.op = 0x04#8
  · simp [h4]
  by_cases h6 : f.op = 0x06#8
  · simp [h6]
  · simp [h4, h6, or_assoc, and_assoc]

/-- The check of WellFormed.lean is R75's condition by fields. -/
theorem legal_fieldsOf_iff (w : Word) : (fieldsOf w).legal = true ↔ WordLegal w := by
  rw [wordLegal_iff, ← immOf_toNat_lt_iff]
  exact Fields.legal_iff (fieldsOf w)

/-! Match and mask -/

/-- A word under a mask is the match exactly when each of its three fields is. -/
theorem and_eq_iff_fields (w mask pattern : Word) :
    w &&& mask = pattern ↔ opOf w &&& opOf mask = opOf pattern ∧ selOf w &&& selOf mask = selOf pattern ∧
      immOf w &&& immOf mask = immOf pattern := by
  simp only [opOf, selOf, immOf, ← BitVec.extractLsb'_and]
  exact ⟨fun h => h ▸ ⟨rfl, rfl, rfl⟩, fun ⟨ho, hs, hi⟩ => word_ext_fields ho hs hi⟩

/-- The full mask leaves nothing free: SEL and IMM are 0. -/
theorem and_fullMask_iff (w : Word) (op : Byte) :
    w &&& 0xFFFFFFFF#32 = 0#16 ++ 0#8 ++ op ↔ opOf w = op ∧ selOf w = 0#8 ∧ immOf w = 0#16 := by
  have hop : opOf 0xFFFFFFFF#32 = BitVec.allOnes 8 := rfl
  have hsel : selOf 0xFFFFFFFF#32 = BitVec.allOnes 8 := rfl
  have himm : immOf 0xFFFFFFFF#32 = BitVec.allOnes 16 := rfl
  rw [and_eq_iff_fields, hop, hsel, himm, BitVec.and_allOnes, BitVec.and_allOnes, BitVec.and_allOnes, opOf_append,
    selOf_append, immOf_append]

/-- CRC16's mask leaves IMM free. -/
theorem and_crc16Mask_iff (w : Word) : w &&& 0x0000FFFF#32 = 0x00000004#32 ↔ opOf w = 0x04#8 ∧ selOf w = 0#8 := by
  have hop : opOf 0x0000FFFF#32 = BitVec.allOnes 8 := rfl
  have hsel : selOf 0x0000FFFF#32 = BitVec.allOnes 8 := rfl
  have himm : immOf 0x0000FFFF#32 = 0#16 := rfl
  rw [and_eq_iff_fields, hop, hsel, himm, BitVec.and_allOnes, BitVec.and_allOnes, BitVec.and_zero]
  exact ⟨fun ⟨ho, hs, _⟩ => ⟨ho, hs⟩, fun ⟨ho, hs⟩ => ⟨ho, hs, rfl⟩⟩

/-- The 1 bits of WRCFG's mask in SEL are those above 3. -/
theorem and_selMask_iff (sel : Byte) : sel &&& 0xFC#8 = 0#8 ↔ sel.toNat ≤ 3 := by
  revert sel
  decide

/-- The 1 bits of WRCFG's mask in IMM are w[31:24]. -/
theorem immOf_and_reservedMask_iff (w : Word) : immOf w &&& 0xFF00#16 = 0#16 ↔ reservedOf w = 0#8 := by
  have hmask : 0xFF00#16 = BitVec.allOnes 8 ++ 0#8 := rfl
  have hzero : 0#16 = 0#8 ++ 0#8 := rfl
  rw [immOf_eq_append, hmask, BitVec.and_append, BitVec.and_allOnes, BitVec.and_zero, hzero, bitVec_append_inj]
  exact and_iff_left rfl

/-- WRCFG's mask leaves the value and SEL's two low bits free. -/
theorem and_wrcfgMask_iff (w : Word) :
    w &&& 0xFF00FCFF#32 = 0x00000006#32 ↔ opOf w = 0x06#8 ∧ (selOf w).toNat ≤ 3 ∧ reservedOf w = 0#8 := by
  have hop : opOf 0xFF00FCFF#32 = BitVec.allOnes 8 := rfl
  rw [and_eq_iff_fields, hop, BitVec.and_allOnes, ← and_selMask_iff, ← immOf_and_reservedMask_iff]
  exact Iff.rfl

/-- A row's words are those that decode to a command of the row's mnemonic. -/
theorem OpcodeRow.matchesWord_iff {r : OpcodeRow} (hr : r ∈ opcodeRows) (w : Word) :
    r.matchesWord w = true ↔ ∃ i, decode w = .instr i ∧ mnemonicOf i = r.mnemonic := by
  simp only [OpcodeRow.matchesWord, beq_iff_eq, decode_eq_instr_iff, exists_instr_iff, mnemonicOf]
  simp only [opcodeRows, List.mem_cons, List.not_mem_nil, or_false] at hr
  rcases hr with rfl | rfl | rfl | rfl | rfl | rfl
  · exact (and_fullMask_iff w 0x01#8).trans (by simp [DecodesAs])
  · exact (and_fullMask_iff w 0x02#8).trans (by simp [DecodesAs])
  · exact (and_fullMask_iff w 0x03#8).trans (by simp [DecodesAs])
  · exact (and_crc16Mask_iff w).trans (by simp [DecodesAs])
  · exact (and_fullMask_iff w 0x05#8).trans (by simp [DecodesAs])
  · exact (and_wrcfgMask_iff w).trans (by simp [DecodesAs, exists_selOfField_iff])

/-- Each command has a row, the one of its mnemonic. -/
theorem exists_row_of_instr (i : Instr) : ∃ r ∈ opcodeRows, r.mnemonic = mnemonicOf i := by
  cases i <;> simp [opcodeRows, mnemonicOf]

/-- The match and mask form of R75: a word of some row is a word that decodes. -/
theorem exists_matchesWord_iff (w : Word) :
    (∃ r ∈ opcodeRows, r.matchesWord w = true) ↔ ∃ i, decode w = .instr i := by
  constructor
  · rintro ⟨r, hr, hmatch⟩
    obtain ⟨i, hdec, -⟩ := (OpcodeRow.matchesWord_iff hr w).mp hmatch
    exact ⟨i, hdec⟩
  · rintro ⟨i, hdec⟩
    obtain ⟨r, hr, hmnemonic⟩ := exists_row_of_instr i
    exact ⟨r, hr, (OpcodeRow.matchesWord_iff hr w).mpr ⟨i, hdec, hmnemonic.symm⟩⟩

/-- A row is found by its mnemonic. -/
theorem row_eq_of_mnemonic_eq : ∀ r ∈ opcodeRows, ∀ r' ∈ opcodeRows, r.mnemonic = r'.mnemonic → r = r' := by
  decide

/-! The statements -/

/-- Settles O3: both forms of R75 accept the words that decode. -/
theorem legalWordsAreThoseOfR75 : Obligations.LegalWordsAreThoseOfR75 := by
  intro w
  refine ⟨exists_decode_iff_wordLegal w, ?_⟩
  rw [← exists_decode_iff_wordLegal, ← exists_matchesWord_iff]
  simp [opcodeRows, OpcodeRow.matchesWord]

/-- Settles O4: check and decoder both accept R75's legal words. -/
theorem fieldCheckAgreesWithDecoder : Obligations.FieldCheckAgreesWithDecoder :=
  fun w => (legal_fieldsOf_iff w).trans (exists_decode_iff_wordLegal w).symm

/-- Settles O5: a word of a row decodes to a command of the row's mnemonic, so two rows of one word have one mnemonic,
and a word that decodes to Illegal is of no row. -/
theorem everyWordDecodesToOneRowOrIllegal : Obligations.EveryWordDecodesToOneRowOrIllegal := by
  refine ⟨fun w r r' hr hr' hmatch hmatch' => ?_, fun w => ?_⟩
  · obtain ⟨i, hdec, hmnemonic⟩ := (OpcodeRow.matchesWord_iff hr w).mp hmatch
    obtain ⟨j, hdec', hmnemonic'⟩ := (OpcodeRow.matchesWord_iff hr' w).mp hmatch'
    have hij : i = j := Decoded.instr.inj (hdec.symm.trans hdec')
    exact row_eq_of_mnemonic_eq r hr r' hr' (by rw [← hmnemonic, ← hmnemonic', hij])
  · cases hdec : decode w with
    | instr i =>
      obtain ⟨r, hr, hmnemonic⟩ := exists_row_of_instr i
      exact .inl ⟨i, rfl, r, hr, (OpcodeRow.matchesWord_iff hr w).mpr ⟨i, hdec, hmnemonic.symm⟩, hmnemonic⟩
    | illegal why =>
      refine .inr ⟨⟨why, rfl⟩, fun r hr => ?_⟩
      rw [Bool.eq_false_iff]
      intro hmatch
      obtain ⟨i, hinstr, -⟩ := (OpcodeRow.matchesWord_iff hr w).mp hmatch
      exact nomatch hdec.symm.trans hinstr

/-- Settles O6: the words by evaluation, and the illegal ones because R75's condition fails on each. -/
theorem encodingExamplesOfR80 : Obligations.EncodingExamplesOfR80 := by
  refine ⟨by decide, by decide, fun w hw i hdec => ?_⟩
  have hlegal : WordLegal w := (exists_decode_iff_wordLegal w).mp ⟨i, hdec⟩
  simp only [List.mem_cons, List.not_mem_nil, or_false] at hw
  rcases hw with rfl | rfl | rfl | rfl | rfl | rfl | rfl <;> exact absurd hlegal (by decide)

end Sys2Proof
end

section
/-! PROOFS. The step on a word that is not legal, and on the words of `cfg` (30_encoding.md R76, R79). -/

namespace Sys2Proof.Machine

/-- An admitted issue of a command's word runs the command. -/
theorem step_of_encoded {s : State} {i : Instr} {bytes : List Byte} {rest : List HostAction}
    (h : s.pending = .command (encode i) bytes :: rest) (hadmits : admitsInput s bytes = true) :
    step s = exec i (issued bytes rest s) := by
  rw [step_of_command h, runCommand_of_instr hadmits (decode_encode i)]

/-- Settles O8: the decoder gives such a word no command, so the issue raises ErrIllegal. -/
theorem illegalWordRaisesErrIllegal : Obligations.IllegalWordRaisesErrIllegal := by
  refine ⟨by decide, fun s w bytes rest hp hadmits hillegal => ?_⟩
  rw [step_of_command hp]
  cases hdec : decode w with
  | instr i => exact absurd ((exists_decode_iff_wordLegal w).mp ⟨i, hdec⟩) hillegal
  | illegal why => exact runCommand_of_illegal hadmits hdec

/-- BUF_MAX bounds no empty IN. -/
@[simp] theorem admitsInput_nil (s : State) : admitsInput s [] = true := by
  unfold admitsInput
  split <;> simp

/-- The state after WRCFGs with an empty IN have made CFG what it is. -/
def withCfgWritten (c : Cfg) (rest : List HostAction) (s : State) : State :=
  { s with cfg := c, status := 0x0000, output := [], consumed := 0, input := [], pending := rest }

/-- The first WRCFG of a run, from any state. -/
theorem run_succ_of_wrcfg {k : Nat} {s : State} {f : CfgField} {v : Byte} {rest : List HostAction}
    (h : s.pending = .command (encode (.wrcfg f v)) [] :: rest) :
    core.run (k + 1) s = core.run k (withCfgWritten (setCfgField s.cfg f v) rest s) :=
  run_succ_of_step (step_of_encoded h (admitsInput_nil s))

/-- A WRCFG after others writes its field into the CFG they made. -/
theorem run_succ_withCfgWritten (k : Nat) (c : Cfg) (f : CfgField) (v : Byte) (rest : List HostAction) (s : State) :
    core.run (k + 1) (withCfgWritten c (.command (encode (.wrcfg f v)) [] :: rest) s) =
      core.run k (withCfgWritten (setCfgField c f v) rest s) :=
  run_succ_of_wrcfg rfl

/-- Settles O41: no WRCFG looks at the legality of the CFG it finds, and the four write each field once. -/
theorem pseudoInstructionsExpand : Obligations.PseudoInstructionsExpand := by
  refine ⟨⟨by decide, by decide, rfl⟩, fun s d e ds es rest => ⟨rfl, fun hp => ?_⟩⟩
  have hfour : s.pending = .command (encode (.wrcfg .delim d)) [] :: .command (encode (.wrcfg .esc e)) [] ::
    .command (encode (.wrcfg .dsub ds)) [] :: .command (encode (.wrcfg .esub es)) [] :: rest := hp
  rw [run_succ_of_wrcfg hfour, run_succ_withCfgWritten, run_succ_withCfgWritten, run_succ_withCfgWritten]
  rfl

end Sys2Proof.Machine
end

section
/-! PROOFS. The stuffing commands: their words, and their two answers, with the encoding or decoding under a legal CFG
and ErrCfg under an illegal one (40_stuffing.md R100 to R104, R115). -/

namespace Sys2Proof.Machine

theorem delim_ne_esc {c : Cfg} (hc : cfgLegal c = true) : c.delim ≠ c.esc := ((cfgLegal_iff c).mp hc).1

theorem dsub_ne_esub {c : Cfg} (hc : cfgLegal c = true) : c.dsub ≠ c.esub := ((cfgLegal_iff c).mp hc).2

/-- A command's one word is its encoding (30_encoding.md R72, R75). -/
theorem decode_eq_instr_iff_eq_encode (w : Word) (i : Instr) : decode w = .instr i ↔ w = encode i :=
  ⟨fun h => (encode_of_decode h).symm, fun h => h ▸ decode_encode i⟩

/-- R100's replacement is the machine's encoder. -/
theorem stuffedR100_eq (c : Cfg) (x : List Byte) : stuffedR100 c x = stuffEnc c x :=
  (stuffEnc_eq_flatMap c x).symm

/-- The three commands that use CFG raise ErrCfg when it is illegal (40_stuffing.md R115). -/
theorem exec_of_illegal_cfg {i : Instr} {s : State} (hi : i = .senc ∨ i = .sencw ∨ i = .sdec)
    (hc : ¬ CfgIsLegal s.cfg) : exec i s = .next (raiseError .cfg s) := by
  have hillegal : cfgLegal s.cfg = false := by rwa [← Bool.not_eq_true, cfgLegal_iff]
  rcases hi with rfl | rfl | rfl <;> exact underLegalCfg_of_illegal _ hillegal

/-- Settles O15: SENC completes with the encoder's output, or raises ErrCfg. -/
theorem sencCommand : Obligations.SencCommand := by
  refine ⟨fun w => decode_eq_instr_iff_eq_encode w .senc, fun s => ⟨fun hc => ?_, exec_of_illegal_cfg (.inl rfl)⟩⟩
  rw [stuffedR100_eq]
  exact exec_senc_of_legal ((cfgLegal_iff _).mpr hc)

/-- Settles O16: SENCW completes with the encoder's output between two delimiters, or raises ErrCfg. -/
theorem sencwCommand : Obligations.SencwCommand := by
  refine ⟨fun w => decode_eq_instr_iff_eq_encode w .sencw,
    fun s => ⟨fun hc => ?_, exec_of_illegal_cfg (.inr (.inl rfl))⟩⟩
  rw [stuffedR100_eq]
  exact exec_sencw_of_legal ((cfgLegal_iff _).mpr hc)

/-- Settles O17: R101's loop ends with the decoder's bytes, flags and reads, so SDEC completes with them. -/
theorem sdecFollowsTheLoop : Obligations.SdecFollowsTheLoop := by
  refine ⟨fun w => decode_eq_instr_iff_eq_encode w .sdec,
    fun s => ⟨fun hc => ?_, exec_of_illegal_cfg (.inr (.inr rfl))⟩⟩
  rw [exec_sdec_of_legal ((cfgLegal_iff _).mpr hc), statusR104_eq_sdecStatus, decodedR101_eq]
  simp [complete, loopAfterRun]

/-- A stuffing command issued under an illegal CFG (40_stuffing.md R115). -/
theorem step_of_illegal_cfg {i : Instr} {s : State} {bytes : List Byte} {rest : List HostAction}
    (hi : i = .senc ∨ i = .sencw ∨ i = .sdec) (h : s.pending = .command (encode i) bytes :: rest)
    (hadmits : admitsInput s bytes = true) (hc : ¬ CfgIsLegal s.cfg) :
    step s = .next (raiseError .cfg (issued bytes rest s)) := by
  rw [step_of_encoded h hadmits]
  exact exec_of_illegal_cfg hi hc

/-- Settles O18: the three words are those of the commands that use CFG; an illegal word is one under any CFG. -/
theorem illegalCfgRaisesErrCfg : Obligations.IllegalCfgRaisesErrCfg := by
  intro s w bytes rest hp hadmits hc
  obtain ⟨-, hillegalWord⟩ := illegalWordRaisesErrIllegal
  refine ⟨fun hw => ?_, hillegalWord s w bytes rest hp hadmits⟩
  rcases hw with rfl | rfl | rfl
  · exact step_of_illegal_cfg (i := .senc) (.inl rfl) hp hadmits hc
  · exact step_of_illegal_cfg (i := .sencw) (.inr (.inl rfl)) hp hadmits hc
  · exact step_of_illegal_cfg (i := .sdec) (.inr (.inr rfl)) hp hadmits hc

end Sys2Proof.Machine
end

section
/-! PROOFS. What the encoder makes of one byte and of all: its first byte, its length, and where the delimiter stands in
it (40_stuffing.md R110, R112, R113). -/

namespace Sys2Proof.Machine

theorem stuffByte_delim (c : Cfg) : stuffByte c c.delim = [c.esc, c.dsub] := if_pos rfl

theorem stuffByte_esc {c : Cfg} (hc : cfgLegal c = true) : stuffByte c c.esc = [c.esc, c.esub] := by
  rw [stuffByte, if_neg (delim_ne_esc hc).symm, if_pos rfl]

theorem stuffByte_of_ne {c : Cfg} {b : Byte} (hd : b ≠ c.delim) (he : b ≠ c.esc) : stuffByte c b = [b] := by
  rw [stuffByte, if_neg hd, if_neg he]

theorem stuffEnc_head? (c : Cfg) (x : List Byte) :
    (stuffEnc c x).head? = x.head?.map (fun b => if b = c.delim ∨ b = c.esc then c.esc else b) := by
  cases x with
  | nil => rfl
  | cons b bs =>
    rw [stuffEnc_cons, stuffByte, List.head?_cons, Option.map_some]
    split_ifs <;> simp_all

theorem stuffEnc_isEmpty (c : Cfg) (x : List Byte) : (stuffEnc c x).isEmpty = x.isEmpty := by
  cases x with
  | nil => rfl
  | cons b bs =>
    rw [stuffEnc_cons, stuffByte]
    split_ifs <;> rfl

/-- One byte more for each byte that needs an escape (40_stuffing.md R112). -/
theorem stuffEnc_length (c : Cfg) (x : List Byte) :
    (stuffEnc c x).length = x.length + x.countP (fun b => b == c.delim || b == c.esc) := by
  induction x with
  | nil => rfl
  | cons b bs ih =>
    rw [stuffEnc_cons, List.length_append, stuffByte_length, ih, List.length_cons, List.countP_cons]
    split <;> omega

theorem wrapFrame_length (c : Cfg) (body : List Byte) :
    (wrapFrame c body).length = (stuffEnc c body).length + 2 := by
  simp [wrapFrame]

/-- A byte of the encoding stands in the encoding of some byte. -/
theorem mem_stuffEnc {c : Cfg} {x : List Byte} {b : Byte} : b ∈ stuffEnc c x ↔ ∃ a ∈ x, b ∈ stuffByte c a := by
  rw [stuffEnc_eq_flatMap, List.mem_flatMap]

/-- With substitutes other than the delimiter no byte's encoding holds it (40_stuffing.md R113). -/
theorem delim_not_mem_stuffByte {c : Cfg} (hc : cfgLegal c = true) (hdsub : c.dsub ≠ c.delim)
    (hesub : c.esub ≠ c.delim) (b : Byte) : c.delim ∉ stuffByte c b := by
  have hde := delim_ne_esc hc
  by_cases hd : b = c.delim
  · simp [hd, stuffByte_delim, hde, hdsub.symm]
  by_cases he : b = c.esc
  · simp [he, stuffByte_esc hc, hde, hesub.symm]
  · simp [stuffByte_of_ne hd he, Ne.symm hd]

theorem delim_not_mem_stuffEnc {c : Cfg} (hc : cfgLegal c = true) (hdsub : c.dsub ≠ c.delim)
    (hesub : c.esub ≠ c.delim) (x : List Byte) : c.delim ∉ stuffEnc c x := by
  rw [mem_stuffEnc]
  rintro ⟨a, -, ha⟩
  exact delim_not_mem_stuffByte hc hdsub hesub a ha

/-- A delimiter in the payload puts dsub into its encoding. -/
theorem dsub_mem_stuffEnc {c : Cfg} {x : List Byte} (h : c.delim ∈ x) : c.dsub ∈ stuffEnc c x :=
  mem_stuffEnc.mpr ⟨_, h, by simp [stuffByte_delim]⟩

/-- An escape byte in the payload puts esub into its encoding. -/
theorem esub_mem_stuffEnc {c : Cfg} (hc : cfgLegal c = true) {x : List Byte} (h : c.esc ∈ x) :
    c.esub ∈ stuffEnc c x :=
  mem_stuffEnc.mpr ⟨_, h, by simp [stuffByte_esc hc]⟩

/-- A body without the delimiter has it in its frame only first and last. -/
theorem count_delim_wrapFrame {c : Cfg} {body : List Byte} (h : c.delim ∉ stuffEnc c body) :
    (wrapFrame c body).count c.delim = 2 := by
  simp [wrapFrame, List.count_eq_zero.mpr h]

theorem wrapFrame_getLast? (c : Cfg) (body : List Byte) : (wrapFrame c body).getLast? = some c.delim := by
  rw [wrapFrame, ← List.cons_append, List.getLast?_append]
  rfl

/-- Settles O24: each length is that of the encoder's output or of the frame. -/
theorem encodedLength : Obligations.EncodedLength := by
  intro s hc
  have hlegal := (cfgLegal_iff _).mpr hc
  exact ⟨_, _, exec_senc_of_legal hlegal, exec_sencw_of_legal hlegal, stuffEnc_length _ _, wrapFrame_length _ _⟩

end Sys2Proof.Machine
end

section
/-! PROOFS. What the decoder makes of encoded bytes, of an escape pair, and of the end of a frame (40_stuffing.md R105
to R111), and the STATUS that comes of it (R104). -/

namespace Sys2Proof.Machine

/-! One step of the unescaped decoder -/

@[simp] theorem decLoop_esc_cons (c : Cfg) (ys : List Byte) :
    decLoop c false (c.esc :: ys) = skipByte (decLoop c true ys) := by
  simp [decLoop]

/-- Under a legal CFG a delimiter is no escape byte, so it ends the frame, whatever follows. -/
theorem decLoop_delim_cons {c : Cfg} (hc : cfgLegal c = true) (ys : List Byte) :
    decLoop c false (c.delim :: ys) = endOfFrame := by
  simp [decLoop, delim_ne_esc hc]

/-! One step of the escaped decoder -/

@[simp] theorem decLoop_dsub_cons (c : Cfg) (ys : List Byte) :
    decLoop c true (c.dsub :: ys) = keepByte c.delim (decLoop c false ys) := by
  simp [decLoop]

theorem decLoop_esub_cons {c : Cfg} (hc : cfgLegal c = true) (ys : List Byte) :
    decLoop c true (c.esub :: ys) = keepByte c.esc (decLoop c false ys) := by
  simp [decLoop, (dsub_ne_esub hc).symm]

theorem decLoop_unknown_cons {c : Cfg} {b : Byte} (hd : b ≠ c.dsub) (he : b ≠ c.esub) (ys : List Byte) :
    decLoop c true (b :: ys) = dropByte (decLoop c false ys) := by
  simp [decLoop, hd, he]

/-! Whole inputs -/

/-- An encoding does not begin with the delimiter, so it is decoded from its first byte on (40_stuffing.md R110). -/
theorem stuffDec_stuffEnc {c : Cfg} (hc : cfgLegal c = true) (x : List Byte) :
    stuffDec c (stuffEnc c x) = ⟨⟨x, false, false, false, (stuffEnc c x).length⟩, !x.isEmpty⟩ := by
  rw [stuffDec_of_head_ne c _ (stuffEnc_head_ne_delim c hc x), decLoop_stuffEnc c hc, stuffEnc_isEmpty]

/-- A frame's leading delimiter is stripped, its body read back, and its trailing delimiter ends it
(40_stuffing.md R111). -/
theorem stuffDec_wrapFrame {c : Cfg} (hc : cfgLegal c = true) (x : List Byte) :
    stuffDec c (wrapFrame c x) = ⟨⟨x, true, false, false, (wrapFrame c x).length⟩, false⟩ := by
  have hbody := decLoop_stuffEnc c hc x
  have hend : decLoop c false (stuffEnc c x ++ [c.delim]) = joinRuns (decLoop c false (stuffEnc c x)) endOfFrame := by
    rw [decLoop_append c _ _ false (by rw [hbody]) (by rw [hbody]), decLoop_delim_cons hc]
  rw [wrapFrame, stuffDec_delim_cons, hend, hbody]
  simp [joinRuns, skipByte, endOfFrame]

/-- A loop that ends at a delimiter goes unescaped and without an end through the bytes before it. -/
theorem decLoop_unescaped_before_term (c : Cfg) (e : Bool) (x : List Byte) (h : (decLoop c e x).term = true) :
    ∃ p post, x = p ++ c.delim :: post ∧ (decLoop c e p).term = false ∧ (decLoop c e p).trailesc = false := by
  induction x generalizing e with
  | nil => simp [decLoop] at h
  | cons b bs ih =>
    cases e with
    | true =>
      have hstep : ∀ ys, (decLoop c true (b :: ys)).term = (decLoop c false ys).term ∧
          (decLoop c true (b :: ys)).trailesc = (decLoop c false ys).trailesc := by
        intro ys
        rw [decLoop]
        split_ifs <;> exact ⟨rfl, rfl⟩
      obtain ⟨p, post, rfl, hp⟩ := ih false ((hstep bs).1 ▸ h)
      exact ⟨b :: p, post, rfl, by rwa [(hstep p).1, (hstep p).2]⟩
    | false =>
      by_cases he : b = c.esc
      · subst he
        obtain ⟨p, post, rfl, hp⟩ := ih true (by simpa using h)
        exact ⟨c.esc :: p, post, rfl, by simpa using hp⟩
      by_cases hd : b = c.delim
      · exact ⟨[], bs, by rw [hd]; rfl, rfl, rfl⟩
      · have hstep : ∀ ys, decLoop c false (b :: ys) = keepByte b (decLoop c false ys) := fun ys => by
          rw [decLoop, if_neg he, if_neg hd]
        obtain ⟨p, post, rfl, hp⟩ := ih false (by simpa [hstep] using h)
        exact ⟨b :: p, post, rfl, by simpa [hstep] using hp⟩

/-- A decoding that ends at a delimiter was unescaped and not at an end before it, and that delimiter is not the first
byte (40_stuffing.md R106). -/
theorem stuffDec_unescaped_before_term (c : Cfg) (x : List Byte) (h : (stuffDec c x).run.term = true) :
    ∃ p post, x = p ++ c.delim :: post ∧ p ≠ [] ∧ (stuffDec c p).run.term = false ∧
      (stuffDec c p).run.trailesc = false := by
  rcases stuffDec_cases c x with ⟨ys, rfl, hdec⟩ | ⟨hhead, hdec⟩ <;> rw [hdec] at h
  · obtain ⟨p, post, rfl, hp⟩ := decLoop_unescaped_before_term c false ys h
    exact ⟨c.delim :: p, post, rfl, nofun, by rwa [stuffDec_delim_cons]⟩
  · obtain ⟨p, post, rfl, hp⟩ := decLoop_unescaped_before_term c false x h
    cases p with
    | nil => exact absurd rfl hhead
    | cons b bs => exact ⟨b :: bs, post, rfl, nofun, by rwa [stuffDec_of_head_ne c (b :: bs) hhead]⟩

/-! STATUS -/

/-- The STATUS bits of the loop's flags, without nolead (40_stuffing.md R104). -/
def runStatus (r : DecRun) : Half := decStatus r.term r.badesc r.trailesc false

@[simp] theorem runStatus_keepByte (b : Byte) (r : DecRun) : runStatus (keepByte b r) = runStatus r := rfl
@[simp] theorem runStatus_skipByte (r : DecRun) : runStatus (skipByte r) = runStatus r := rfl
@[simp] theorem runStatus_endOfFrame : runStatus endOfFrame = 0x0010 := by decide
@[simp] theorem runStatus_escapedEnd (c : Cfg) : runStatus (decLoop c true []) = 0x0040 := by
  simp only [decLoop, runStatus]; decide

@[simp] theorem runStatus_dropByte (r : DecRun) : runStatus (dropByte r) = runStatus r ||| 0x0020 := by
  have hbadesc : (0x0020 : Half) = decStatus false true false false := by decide
  rw [hbadesc, runStatus, runStatus, decStatus_or]
  simp

theorem sdecStatus_lead (r : DecRun) : sdecStatus ⟨r, false⟩ = runStatus r := rfl

theorem sdecStatus_nolead (r : DecRun) : sdecStatus ⟨r, true⟩ = 0x0080 ||| runStatus r := by
  have hnolead : (0x0080 : Half) = decStatus false false false true := by decide
  rw [hnolead, runStatus, decStatus_or]
  simp [sdecStatus]

/-- The flags of a decoding that goes on are joined with those of what follows. -/
theorem sdecStatus_joinRuns {d : StuffDecoded} (r : DecRun) (ht : d.run.term = false) (hx : d.run.trailesc = false) :
    sdecStatus ⟨joinRuns d.run r, d.nolead⟩ = sdecStatus d ||| runStatus r := by
  rw [sdecStatus, sdecStatus, runStatus, decStatus_or]
  simp [joinRuns, ht, hx]

@[simp] theorem decTermBit_sdecStatus (d : StuffDecoded) : decTermBit (sdecStatus d) = d.run.term := by
  obtain ⟨hterm, -⟩ := decStatus_bits d.run.term d.run.badesc d.run.trailesc d.nolead
  exact hterm

@[simp] theorem decTrailescBit_sdecStatus (d : StuffDecoded) : decTrailescBit (sdecStatus d) = d.run.trailesc := by
  obtain ⟨-, -, htrail, -⟩ := decStatus_bits d.run.term d.run.badesc d.run.trailesc d.nolead
  exact htrail

/-- Encoded bytes set no flag but nolead, and that only when there are any (40_stuffing.md R110). -/
theorem sdecStatus_stuffEnc {c : Cfg} (hc : cfgLegal c = true) (x : List Byte) :
    sdecStatus (stuffDec c (stuffEnc c x)) = if x = [] then 0x0000 else 0x0080 := by
  have hflags : sdecStatus (stuffDec c (stuffEnc c x)) = decStatus false false false (!x.isEmpty) := by
    rw [stuffDec_stuffEnc hc]; rfl
  rw [hflags]
  cases x with
  | nil => decide
  | cons b bs => rw [if_neg (List.cons_ne_nil b bs), List.isEmpty_cons]; decide

/-- A frame sets DEC_TERM alone (40_stuffing.md R111). -/
theorem sdecStatus_wrapFrame {c : Cfg} (hc : cfgLegal c = true) (x : List Byte) :
    sdecStatus (stuffDec c (wrapFrame c x)) = 0x0010 := by
  have hflags : sdecStatus (stuffDec c (wrapFrame c x)) = decStatus true false false false := by
    rw [stuffDec_wrapFrame hc]; rfl
  rw [hflags]
  decide

end Sys2Proof.Machine
end

section
/-! PROOFS. SDEC on an IN of one's choice, and what it answers on an IN that is continued (40_stuffing.md R105 to R108),
and what it makes of encoded bytes (R110 to R113). -/

namespace Sys2Proof.Machine

/-- SDEC's completion with what the decoder gave. -/
def afterSdec (d : StuffDecoded) (s : State) : State := complete (sdecStatus d) d.run.bytes d.run.read s

@[simp] theorem afterSdec_output (d : StuffDecoded) (s : State) : (afterSdec d s).output = d.run.bytes := rfl
@[simp] theorem afterSdec_status (d : StuffDecoded) (s : State) : (afterSdec d s).status = sdecStatus d := rfl

/-- The state that SDEC begins in counts for CFG alone: it overwrites IN, OUT and STATUS. -/
theorem exec_sdec_input {s : State} (hc : cfgLegal s.cfg = true) (x : List Byte) :
    exec .sdec { s with input := x } = .next (afterSdec (stuffDec s.cfg x) s) :=
  exec_sdec_of_legal (s := { s with input := x }) hc

theorem eq_afterSdec {s t : State} {x : List Byte} (hc : cfgLegal s.cfg = true)
    (h : exec .sdec { s with input := x } = .next t) : t = afterSdec (stuffDec s.cfg x) s :=
  Host.Outcome.next.inj (h.symm.trans (exec_sdec_input hc x))

/-- Nothing that a command's completion writes makes a difference to an SDEC after it. -/
theorem exec_sdec_after_complete {s : State} (hc : cfgLegal s.cfg = true) (st : Half) (out : List Byte) (n : Nat)
    (x : List Byte) : exec .sdec { complete st out n s with input := x } = exec .sdec { s with input := x } :=
  (exec_sdec_input (s := complete st out n s) hc x).trans (exec_sdec_input hc x).symm

/-- An SDEC whose IN left the decoder unescaped and not at the end of a frame, with more bytes behind that IN. -/
theorem exec_sdec_append {s t : State} {p : List Byte} (hc : cfgLegal s.cfg = true) (hp : p ≠ [])
    (h : exec .sdec { s with input := p } = .next t) (hterm : decTermBit t.status = false)
    (htrail : decTrailescBit t.status = false) (ys : List Byte) :
    exec .sdec { s with input := p ++ ys } = .next (complete (t.status ||| runStatus (decLoop s.cfg false ys))
      (t.output ++ (decLoop s.cfg false ys).bytes) (p.length + (decLoop s.cfg false ys).read) s) := by
  obtain rfl := eq_afterSdec hc h
  simp only [afterSdec_status, decTermBit_sdecStatus, decTrailescBit_sdecStatus] at hterm htrail
  rw [exec_sdec_input hc, stuffDec_append s.cfg p ys hp hterm htrail, afterSdec,
    sdecStatus_joinRuns _ hterm htrail, ← stuffDec_read_of_not_term s.cfg p hterm]
  rfl

/-- An SDEC whose IN begins with the escape byte, which is no leading delimiter (40_stuffing.md R109). -/
theorem exec_sdec_esc_cons {s : State} (hc : cfgLegal s.cfg = true) (ys : List Byte) :
    exec .sdec { s with input := s.cfg.esc :: ys } = .next (complete (0x0080 ||| runStatus (decLoop s.cfg true ys))
      (decLoop s.cfg true ys).bytes ((decLoop s.cfg true ys).read + 1) s) := by
  have hhead : (s.cfg.esc :: ys).head? ≠ some s.cfg.delim := by simpa using (delim_ne_esc hc).symm
  rw [exec_sdec_input hc, stuffDec_of_head_ne _ _ hhead, decLoop_esc_cons]
  simp [afterSdec, sdecStatus_nolead]

/-- Settles O22: the decoder reads the encoding back from its first byte, which is never the delimiter. -/
theorem decodeUndoesEncode : Obligations.DecodeUndoesEncode := by
  intro s x hc
  have hlegal := (cfgLegal_iff _).mpr hc
  refine ⟨_, _, exec_senc_of_legal hlegal, exec_sdec_input hlegal _, ?_, sdecStatus_stuffEnc hlegal x,
    (stuffedR100_eq s.cfg x).symm, stuffEnc_head? s.cfg x, stuffEnc_head_ne_delim s.cfg hlegal x⟩
  simp [stuffDec_stuffEnc hlegal]

/-- Settles O23: the decoder strips the leading delimiter, reads the body back and stops at the trailing one. -/
theorem decodeUndoesFrame : Obligations.DecodeUndoesFrame := by
  intro s x hc
  have hlegal := (cfgLegal_iff _).mpr hc
  refine ⟨_, _, exec_sencw_of_legal hlegal, exec_sdec_input hlegal _, ?_, sdecStatus_wrapFrame hlegal x⟩
  simp [stuffDec_wrapFrame hlegal]

/-- Settles O25: no byte's encoding holds the delimiter unless a substitute is one, and a frame always decodes. -/
theorem delimiterOnlyAtFrameEnds : Obligations.DelimiterOnlyAtFrameEnds := by
  intro s hc
  have hlegal := (cfgLegal_iff _).mpr hc
  refine ⟨_, _, exec_senc_of_legal hlegal, exec_sencw_of_legal hlegal, fun hdsub hesub => ?_, fun hdsub hmem => ?_,
    fun hesub hmem => ?_, _, exec_sdec_input hlegal _, ?_⟩
  · have hnot := delim_not_mem_stuffEnc hlegal hdsub hesub s.input
    exact ⟨hnot, count_delim_wrapFrame hnot, rfl, wrapFrame_getLast? _ _⟩
  · exact hdsub ▸ dsub_mem_stuffEnc hmem
  · exact hesub ▸ esub_mem_stuffEnc hlegal hmem
  · simp [stuffDec_wrapFrame hlegal]

/-- Settles O19: the pair begins a run of its own, which is joined to the one before it. -/
theorem escapedByteIsMappedOrDropped : Obligations.EscapedByteIsMappedOrDropped := by
  intro s u ys b hc hu
  have hlegal := (cfgLegal_iff _).mpr hc
  obtain rfl := eq_afterSdec hlegal hu
  simp only [afterSdec_output, afterSdec_status, stuffDec_delim_cons, sdecStatus_lead, runStatus_skipByte,
    skipByte_bytes]
  refine ⟨fun t p hp ht hterm htrail => ⟨_, exec_sdec_append hlegal hp ht hterm htrail _, ?_, ?_, ?_⟩,
    _, exec_sdec_esc_cons hlegal _, ?_, ?_, ?_⟩
  · rintro rfl; simp
  · rintro rfl; simp [decLoop_esub_cons hlegal]
  · intro hd he; simp [decLoop_unknown_cons hd he, BitVec.or_assoc]
  · rintro rfl; simp
  · rintro rfl; simp [decLoop_esub_cons hlegal]
  · intro hd he; simp [decLoop_unknown_cons hd he, BitVec.or_assoc]

/-- Settles O20: the run from such a delimiter on is the end of a frame, and a run with an end in it has one there. -/
theorem endOfFrameStopsDecoding : Obligations.EndOfFrameStopsDecoding := by
  intro s t p hc ht
  have hlegal := (cfgLegal_iff _).mpr hc
  refine ⟨fun hterm => ?_, fun hterm => ?_, fun hp hterm htrail rest => ?_⟩
  · obtain rfl := eq_afterSdec hlegal ht
    exact stuffDec_read_of_not_term s.cfg p (by simpa using hterm)
  · obtain rfl := eq_afterSdec hlegal ht
    obtain ⟨q, rest, rfl, hq, hqterm, hqtrail⟩ := stuffDec_unescaped_before_term s.cfg p (by simpa using hterm)
    exact ⟨q, rest, _, rfl, hq, exec_sdec_input hlegal q, by simpa using hqterm, by simpa using hqtrail⟩
  · rw [exec_sdec_append hlegal hp ht hterm htrail, decLoop_delim_cons hlegal, runStatus_endOfFrame]
    obtain rfl := eq_afterSdec hlegal ht
    simp [endOfFrame, afterSdec, complete]

/-- Settles O21: the run on the escape byte alone keeps nothing and sets DEC_TRAILESC only. -/
theorem trailingEscapeIsReported : Obligations.TrailingEscapeIsReported := by
  intro s hc
  have hlegal := (cfgLegal_iff _).mpr hc
  refine ⟨fun t p hp ht hterm htrail => ⟨_, exec_sdec_append hlegal hp ht hterm htrail _, ?_, ?_,
      exec_sdec_after_complete hlegal _ _ _⟩,
    _, exec_sdec_esc_cons hlegal [], rfl, ?_, exec_sdec_after_complete hlegal _ _ _⟩
  · simp [decLoop]
  · simp
  · simp

end Sys2Proof.Machine
end

section
/-! PROOFS. The CRC engine (41_crc16.md): its step and the polynomial step are linear over exclusive or and agree on the
one-bit words (R143); where a step may truncate (R146); the command (R140 to R145). -/

namespace Sys2Proof.Machine

/-! Linear maps: two of them are one map once they agree on the one-bit words -/

/-- The map distributes over exclusive or: it is linear over the two-element field. -/
def XorLinear (f : Half → Half) : Prop := ∀ x y, f (x ^^^ y) = f x ^^^ f y

/-- One more bit of a word adds that bit's one-bit word, or nothing, to the bits below it. -/
theorem setWidth_succ_eq_xor (x : Half) (n : Nat) :
    (x.setWidth (n + 1)).setWidth 16 =
      (x.setWidth n).setWidth 16 ^^^ if x.getLsbD n then BitVec.twoPow 16 n else 0#16 := by
  ext i hi
  rcases lt_trichotomy i n with h | rfl | h
  · cases x.getLsbD n <;> simp [h, h.ne, Nat.lt_succ_of_lt h]
  · cases h : x.getLsbD i <;> simp_all
  · cases x.getLsbD n <;> simp [h.ne', Nat.not_lt.mpr h.le, Nat.not_lt.mpr (Nat.succ_le_of_lt h)]

namespace XorLinear

variable {f g : Half → Half}

theorem map_zero (hf : XorLinear f) : f 0#16 = 0#16 := by simpa using hf 0#16 0#16

theorem shiftLeft (n : Nat) : XorLinear (· <<< n) := fun x y => BitVec.shiftLeft_xor_distrib x y n

theorem ushiftRight (n : Nat) : XorLinear (· >>> n) := fun x y => BitVec.ushiftRight_xor_distrib x y n

theorem mask (m : Half) : XorLinear (· &&& m) := fun x y => by
  ext i hi
  simp [Bool.and_xor_distrib_right]

/-- A constant that a word's top bit selects. -/
theorem ifMsb (c : Half) : XorLinear (fun x => if x.msb then c else 0#16) := fun x y => by
  simp only [BitVec.msb_xor]
  cases x.msb <;> cases y.msb <;> simp

theorem comp (hf : XorLinear f) (hg : XorLinear g) : XorLinear (fun x => f (g x)) := fun x y =>
  (congrArg f (hg x y)).trans (hf (g x) (g y))

theorem xor (hf : XorLinear f) (hg : XorLinear g) : XorLinear (fun x => f x ^^^ g x) := fun x y => by
  simp only [hf x y, hg x y]
  ac_rfl

theorem self_xor (hf : XorLinear f) : XorLinear (fun x => x ^^^ f x) := xor (fun _ _ => rfl) hf

theorem iterate (hf : XorLinear f) : ∀ n, XorLinear f^[n]
  | 0 => fun _ _ => rfl
  | n + 1 => (hf.iterate n).comp hf

theorem eq_of_twoPow (hf : XorLinear f) (hg : XorLinear g)
    (h : ∀ i < 16, f (BitVec.twoPow 16 i) = g (BitVec.twoPow 16 i)) : f = g := by
  funext x
  suffices hlow : ∀ n ≤ 16, f ((x.setWidth n).setWidth 16) = g ((x.setWidth n).setWidth 16) by
    simpa using hlow 16 le_rfl
  intro n hn
  induction n with
  | zero => simp [BitVec.of_length_zero, hf.map_zero, hg.map_zero]
  | succ n ih =>
    rw [setWidth_succ_eq_xor, hf, hg, ih (Nat.le_of_lt hn)]
    split
    · rw [h n hn]
    · rw [hf.map_zero, hg.map_zero]

end XorLinear

/-! The model's step (41_crc16.md R140): the byte may enter the high half before the swap, and the rest is linear -/

theorem crcSwap_eq_xor (x : Half) : crcSwap x = x >>> 8 ^^^ x <<< 8 := by
  ext i hi
  interval_cases i <;> simp [crcSwap]

theorem crcSwap_highByte (b : Byte) : crcSwap (b.setWidth 16 <<< 8) = b.setWidth 16 := by
  have hleft : b.setWidth 16 <<< 8 <<< 8 = 0#16 := by
    rw [← BitVec.shiftLeft_add, BitVec.shiftLeft_eq_zero le_rfl]
  have hright : b.setWidth 16 <<< 8 >>> 8 = b.setWidth 16 :=
    BitVec.eq_of_toNat_eq (by simp [Nat.shiftLeft_eq, Nat.shiftRight_eq_div_pow]; omega)
  rw [crcSwap_eq_xor, hleft, hright, BitVec.xor_zero]

theorem crcSwap_xorLinear : XorLinear crcSwap := by
  rw [funext crcSwap_eq_xor]
  exact (XorLinear.ushiftRight 8).xor (XorLinear.shiftLeft 8)

theorem crcFoldHighNibble_xorLinear : XorLinear crcFoldHighNibble :=
  ((XorLinear.ushiftRight 4).comp (XorLinear.mask 0x00FF)).self_xor

theorem crcFoldTwelve_xorLinear : XorLinear crcFoldTwelve :=
  ((XorLinear.shiftLeft 4).comp (XorLinear.shiftLeft 8)).self_xor

theorem crcFoldFive_xorLinear : XorLinear crcFoldFive :=
  ((XorLinear.shiftLeft 1).comp ((XorLinear.shiftLeft 4).comp (XorLinear.mask 0x00FF))).self_xor

theorem crcStep_eq_crcStep_zero (reg : Half) (b : Byte) :
    crcStep reg b = crcStep (reg ^^^ b.setWidth 16 <<< 8) 0#8 := by
  simp [crcStep, crcSwap_xorLinear reg, crcSwap_highByte]

theorem crcStep_zero_xorLinear : XorLinear (crcStep · 0#8) := by
  have hfolds : (crcStep · 0#8) = fun x => crcFoldFive (crcFoldTwelve (crcFoldHighNibble (crcSwap x))) := by
    funext x
    simp [crcStep]
  rw [hfolds]
  exact crcFoldFive_xorLinear.comp
    (crcFoldTwelve_xorLinear.comp (crcFoldHighNibble_xorLinear.comp crcSwap_xorLinear))

/-! The polynomial step (41_crc16.md R143): eight linear shifts, once the byte is in the high half -/

theorem and_topBit_ne_zero_iff (x : Half) : x &&& 0x8000#16 ≠ 0#16 ↔ x.msb = true := by
  have htop : 0x8000#16 = BitVec.twoPow 16 15 := by decide
  rw [htop, BitVec.and_twoPow, BitVec.msb_eq_getLsbD_last]
  cases x.getLsbD 15 <;> simp

/-- A shift drops the top bit and adds the polynomial when that bit was 1. -/
theorem polyShiftR143_eq_xor (x : Half) : polyShiftR143 x = x <<< 1 ^^^ if x.msb then 0x1021#16 else 0#16 := by
  simp only [polyShiftR143, and_topBit_ne_zero_iff]
  split <;> simp

theorem polyShiftR143_xorLinear : XorLinear polyShiftR143 := by
  rw [funext polyShiftR143_eq_xor]
  exact (XorLinear.shiftLeft 1).xor (XorLinear.ifMsb 0x1021#16)

theorem polyStepR143_eq_iterate (reg : Half) (b : Byte) :
    polyStepR143 reg b = polyShiftR143^[8] (reg ^^^ b.setWidth 16 <<< 8) :=
  List.foldl_const ..

/-- The two steps do the same with the register and the byte added up, since both are linear there and agree on the
sixteen one-bit words. -/
theorem crcStep_eq_polyStepR143 (reg : Half) (b : Byte) : crcStep reg b = polyStepR143 reg b := by
  have hmaps : (crcStep · 0#8) = polyShiftR143^[8] :=
    crcStep_zero_xorLinear.eq_of_twoPow (polyShiftR143_xorLinear.iterate 8) (by decide)
  rw [crcStep_eq_crcStep_zero, polyStepR143_eq_iterate, ← hmaps]

/-! Truncation (41_crc16.md R146) -/

/-- Sub-step 5 reads only the low byte of sub-step 4's result, and the truncation at the end cuts the rest. -/
theorem crcStepR146_eq_crcStepR140 (reg b : Nat) : crcStepR146 reg b = crcStepR140 reg b := by
  simp only [crcStepR146, crcStepR140]
  rw [mod_and_of_lt _ (by decide), Nat.xor_mod_two_pow (n := 16), Nat.xor_mod_two_pow (n := 16) (a := _ % _),
    Nat.mod_mod]

/-! The command (41_crc16.md R142) -/

theorem exec_crc16 (seed : Half) (s : State) :
    exec (.crc16 seed) s = .next (writeResult (crc16 s.input seed) (complete statusOk [] s.input.length s)) := rfl

/-- Settles O28: the words are the encodings, and the fold of R141 is the engine's. -/
theorem crc16Command : Obligations.Crc16Command := by
  refine ⟨fun w seed => decode_eq_instr_iff_eq_encode w (.crc16 seed), fun s seed => ?_⟩
  rw [exec_crc16, crcR141_eq_crc16]
  rfl

/-- Settles O29: the steps are equal, and RESULT is the fold of the step. -/
theorem crcStepIsThePolynomialStep : Obligations.CrcStepIsThePolynomialStep := by
  refine ⟨crcStep_eq_polyStepR143, fun s seed => ⟨_, exec_crc16 seed s, ?_⟩⟩
  rw [writeResult_result, crc16_eq_foldl, funext₂ crcStep_eq_polyStepR143]

/-- Settles O30: the engine goes on where it stopped, and stops at once on no bytes. -/
theorem checksumsStream : Obligations.ChecksumsStream := by
  intro s x y seed
  refine ⟨⟨_, exec_crc16 .., rfl⟩, _, _, _, exec_crc16 .., rfl, exec_crc16 .., _, exec_crc16 .., ?_⟩
  simp only [writeResult_result, crc16_append]

/-- Settles O31: the step with one truncation is R140's, which is the model's. -/
theorem truncationPointIsIrrelevant : Obligations.TruncationPointIsIrrelevant := by
  intro reg b
  rw [crcStepR146_eq_crcStepR140, crcStep_toNat]
  exact ⟨rfl, rfl⟩

end Sys2Proof.Machine
end

section
/-! PROOFS. The DFU header: each of its bytes written as the bit fields it is made of, and its checksum (42_dfu_frame.md
R163 to R167, R173, R174). -/

namespace Sys2Proof.Machine

/-- Bits 7 and 6 are the two flags, bits 5:3 the next sequence number, bits 2:0 the sequence number (R163). -/
theorem ofNat_headerByte0 (seq : BitVec 3) : BitVec.ofNat 8 (headerByte0 seq.toNat) = 3#2 ++ (seq + 1) ++ seq := by
  revert seq
  decide

theorem headerByte1_eq (len : Nat) : headerByte1 len = (len % 16) <<< 4 ||| 14 := by
  have hlow : len &&& 0xF = len % 16 := Nat.and_two_pow_sub_one_eq_mod len 4
  rw [headerByte1, hlow, Nat.or_comm]
  rfl

theorem headerByte1_lt (len : Nat) : headerByte1 len < 2 ^ 8 := by
  rw [headerByte1_eq]
  exact Nat.or_lt_two_pow (by rw [Nat.shiftLeft_eq]; omega) (by decide)

/-- Bits 7:4 are the length's low four bits, bits 3:0 the packet type (R164). -/
theorem ofNat_headerByte1 (len : Nat) : BitVec.ofNat 8 (headerByte1 len) = BitVec.ofNat 4 len ++ 14#4 := by
  apply BitVec.eq_of_toNat_eq
  rw [BitVec.toNat_ofNat, Nat.mod_eq_of_lt (headerByte1_lt len), headerByte1_eq, BitVec.toNat_append]
  rfl

theorem headerByte2_eq (len : Nat) : headerByte2 len = (len >>> 4) % 256 := by
  rw [headerByte2, Nat.shiftRight_and_distrib]
  exact Nat.and_two_pow_sub_one_eq_mod _ 8

/-- The whole byte is the length's next eight bits (R165). -/
theorem ofNat_headerByte2 (len : Nat) : BitVec.ofNat 8 (headerByte2 len) = BitVec.ofNat 8 (len >>> 4) := by
  apply BitVec.eq_of_toNat_eq
  rw [headerByte2_eq, BitVec.toNat_ofNat, BitVec.toNat_ofNat]
  exact Nat.mod_mod _ 256

/-- The header by its bit fields, its checksum byte aside. -/
theorem dfuHeader_eq (seq : BitVec 3) (len : Nat) :
    dfuHeader seq len = [3#2 ++ (seq + 1) ++ seq, BitVec.ofNat 4 len ++ 14#4, BitVec.ofNat 8 (len >>> 4),
      BitVec.ofNat 8 (headerByte3 seq.toNat len)] := by
  rw [dfuHeader, ofNat_headerByte0, ofNat_headerByte1, ofNat_headerByte2]

/-- The bit fields of byte 0 are what it was put together from. -/
theorem headerByte0_fields (seq : BitVec 3) :
    (3#2 ++ (seq + 1) ++ seq).extractLsb' 0 3 = seq ∧ (3#2 ++ (seq + 1) ++ seq).extractLsb' 3 3 = seq + 1 ∧
    (3#2 ++ (seq + 1) ++ seq).getLsbD 6 = true ∧ (3#2 ++ (seq + 1) ++ seq).getLsbD 7 = true := by
  revert seq
  decide

/-- A length of at most 12 bits is read back from its two parts (R165). -/
theorem length_of_parts {len : Nat} (h : len ≤ 4095) :
    len = (BitVec.ofNat 8 (len >>> 4)).toNat <<< 4 ||| (BitVec.ofNat 4 len).toNat := by
  rw [← Nat.shiftLeft_add_eq_or_of_lt (BitVec.isLt _), Nat.shiftRight_eq_div_pow, Nat.shiftLeft_eq]
  simp only [BitVec.toNat_ofNat]
  omega

/-- The last byte makes the sum of the four a multiple of 256 (R166, R174). -/
theorem header_sum_mod (seq : BitVec 3) (len : Nat) :
    ((3#2 ++ (seq + 1) ++ seq).toNat + (BitVec.ofNat 4 len ++ 14#4).toNat + (BitVec.ofNat 8 (len >>> 4)).toNat +
      (BitVec.ofNat 8 (headerByte3 seq.toNat len)).toNat) % 256 = 0 := by
  rw [← ofNat_headerByte0, ← ofNat_headerByte1, ← ofNat_headerByte2, headerByte3]
  simp only [BitVec.toNat_ofNat, trunc8]
  omega

/-- Settles O33: the fields read from bytes 0 to 2 are those the bytes were put together from. -/
theorem headerBitByBit : Obligations.HeaderBitByBit := by
  intro seq len hlen
  obtain ⟨hseq, hnext, hdip, hrp⟩ := headerByte0_fields seq
  have hlow : (BitVec.ofNat 4 len ++ 14#4).extractLsb' 4 4 = BitVec.ofNat 4 len := BitVec.extractLsb'_append_eq_left
  refine ⟨_, _, _, _, dfuHeader_eq seq len, hseq, hnext, hdip, hrp, BitVec.extractLsb'_append_eq_right, hlow, rfl, ?_,
    header_sum_mod seq len⟩
  rw [hlow]
  exact length_of_parts hlen

/-- 0xC0 and 0xDB are 3, 0, 0 and 3, 3, 3 in the fields of byte 0, of which the middle one follows the last (R173). -/
theorem headerByte0_needs_no_escape (seq : BitVec 3) :
    3#2 ++ (seq + 1) ++ seq ≠ 0xC0#8 ∧ 3#2 ++ (seq + 1) ++ seq ≠ 0xDB#8 := by
  revert seq
  decide

/-- The low half of byte 1 is the packet type, which is neither 0 nor 0xB (R173). -/
theorem headerByte1_needs_no_escape (high : BitVec 4) : high ++ 14#4 ≠ 0xC0#8 ∧ high ++ 14#4 ≠ 0xDB#8 := by
  revert high
  decide

/-- Settles O34: bytes 0 and 1 differ from both by their fields. -/
theorem firstHeaderBytesNeedNoEscape : Obligations.FirstHeaderBytesNeedNoEscape := by
  refine ⟨fun seq len _ => ?_, fun seq => ⟨rfl, rfl⟩, rfl, rfl⟩
  rw [dfuHeader_eq, List.take_succ_cons, List.forall_mem_cons, List.take_succ_cons, List.forall_mem_cons]
  exact ⟨headerByte0_needs_no_escape seq, headerByte1_needs_no_escape _, by simp⟩

end Sys2Proof.Machine
end

section
/-! PROOFS. DFUFRM: its frame by the rules' formulas, the frame's shape, what SDEC and CRC16 make of it, and that it
tells its sequence number (42_dfu_frame.md R160 to R177). -/

namespace Sys2Proof.Machine

theorem dfuCodec_legal : cfgLegal dfuCodec = true := rfl

/-- The header by the formulas of R163 to R166 is the machine's. -/
theorem headerR160_eq (seq : BitVec 3) (len : Nat) :
    (headerR160 seq.toNat len).map (BitVec.ofNat 8) = dfuHeader seq len := rfl

/-- The body of R160 is the machine's. -/
theorem bodyR160_eq (seq : BitVec 3) (payload : List Byte) : bodyR160 seq payload = dfuBody seq payload := by
  rw [bodyR160, headerR160_eq, crcR141_eq_crc16]
  rfl

/-- The next sequence number, counted modulo 8 (R162). -/
theorem ofNat_toNat_succ_mod (seq : BitVec 3) : BitVec.ofNat 3 ((seq.toNat + 1) % 8) = seq + 1 := by
  revert seq
  decide

/-- A frame is the body, encoded with the fixed constants, between two delimiters (R170). -/
theorem dfuFrame_eq (seq : BitVec 3) (payload : List Byte) :
    dfuFrame seq payload =
      [0xC0#8] ++ stuffedR100 ⟨0xC0, 0xDB, 0xDC, 0xDD⟩ (dfuBody seq payload) ++ [0xC0#8] := by
  rw [stuffedR100_eq]
  rfl

theorem exec_dfufrm_of_lt_length {s : State} (h : lenMax < s.input.length) :
    exec .dfufrm s = .next (raiseError .len s) :=
  if_pos h

/-- Settles O32: within LEN_MAX the completion with the frame, beyond it ErrLen. -/
theorem dfufrmCommand : Obligations.DfufrmCommand := by
  refine ⟨fun w => decode_eq_instr_iff_eq_encode w .dfufrm,
    fun s => ⟨fun hlen => ?_, fun hlong => ⟨0, exec_dfufrm_of_lt_length hlong⟩⟩⟩
  rw [exec_dfufrm_of_length_le hlen, ofNat_toNat_succ_mod, bodyR160_eq, ← dfuFrame_eq]
  rfl

theorem delim_not_mem_stuffEnc_dfuCodec (body : List Byte) : dfuCodec.delim ∉ stuffEnc dfuCodec body :=
  delim_not_mem_stuffEnc dfuCodec_legal (by decide) (by decide) body

/-- Six bytes more than the payload, two delimiters, and one byte for each escape (R172). -/
theorem dfuFrame_length (seq : BitVec 3) (payload : List Byte) :
    (dfuFrame seq payload).length =
      payload.length + 8 + (dfuBody seq payload).countP (fun b => b == 0xC0#8 || b == 0xDB#8) := by
  rw [dfuFrame, wrapFrame_length, stuffEnc_length, dfuBody_length]
  exact Nat.add_right_comm (payload.length + 6) _ 2

/-- Settles O35: the frame is a wrapped body, and no substitute of the fixed constants is the delimiter. -/
theorem frameShape : Obligations.FrameShape := by
  intro s hlen
  exact ⟨_, exec_dfufrm_of_length_le hlen, dfuFrame_eq _ _, dfuBody_length _ _, dfuFrame_length _ _,
    count_delim_wrapFrame (delim_not_mem_stuffEnc_dfuCodec _), rfl, wrapFrame_getLast? _ _⟩

/-- With the fixed constants a frame decodes to its body (R175). -/
theorem stuffDec_dfuFrame_bytes (seq : BitVec 3) (payload : List Byte) :
    (stuffDec dfuCodec (dfuFrame seq payload)).run.bytes = dfuBody seq payload := by
  rw [dfuFrame, stuffDec_wrapFrame dfuCodec_legal]

/-- All of a body but its last two bytes is what its CRC covers (R168, R169). -/
theorem take_of_eq_dfuBody {seq : BitVec 3} {payload x : List Byte} (h : x = dfuBody seq payload) :
    x.take (x.length - 2) = dfuCovered seq payload := by
  subst h
  exact List.take_left' (by simp [dfuBody, le16])

/-- Settles O36: SDEC reads the body back, and CRC16 runs over what the frame's own CRC was computed from. -/
theorem frameDecodesAndItsCrcChecks : Obligations.FrameDecodesAndItsCrcChecks := by
  intro s hlen
  have hbody := stuffDec_dfuFrame_bytes (s.seq + 1) s.input
  exact ⟨_, _, _, dfuCrc (s.seq + 1) s.input, exec_dfufrm_of_length_le hlen, exec_sdec_of_legal dfuCodec_legal,
    sdecStatus_wrapFrame dfuCodec_legal _, hbody, exec_crc16 _ _,
    congrArg (fun x => some (crc16 x dfuSeed)) (take_of_eq_dfuBody hbody)⟩

/-- Settles O38: DFUFRM decides on the length of IN and builds its frame from SEQ and IN. -/
theorem dfuFrameIgnoresCfg : Obligations.DfuFrameIgnoresCfg := by
  intro s c
  rcases Nat.lt_or_ge lenMax s.input.length with hlong | hlen
  · exact ⟨_, exec_dfufrm_of_lt_length hlong, exec_dfufrm_of_lt_length hlong⟩
  · exact ⟨_, exec_dfufrm_of_length_le hlen, exec_dfufrm_of_length_le hlen⟩

/-- A frame tells its sequence number: decoded, its first byte has it in bits 2:0 (R177). -/
theorem dfuFrame_seq_inj {seq seq' : BitVec 3} {payload payload' : List Byte}
    (h : dfuFrame seq payload = dfuFrame seq' payload') : seq = seq' := by
  have hbody : dfuBody seq payload = dfuBody seq' payload' := by
    rw [← stuffDec_dfuFrame_bytes, h, stuffDec_dfuFrame_bytes]
  simp only [dfuBody, dfuCovered, dfuHeader_eq, List.cons_append] at hbody
  have hbyte := List.head_eq_of_cons_eq hbody
  exact ((bitVec_append_inj _ _ _ _).mp hbyte).2

/-- Settles O39: the new SEQ is what a frame tells, and it tells the old one. -/
theorem sameFrameOnlyFromSameSeq : Obligations.SameFrameOnlyFromSameSeq := by
  intro s s' hinput hlen
  refine ⟨_, _, exec_dfufrm_of_length_le hlen, exec_dfufrm_of_length_le (hinput ▸ hlen), fun h => ?_, fun h => ?_⟩
  · exact add_right_cancel (dfuFrame_seq_inj h)
  · exact congrArg₂ (fun seq payload => dfuFrame (seq + 1) payload) h hinput

end Sys2Proof.Machine
end

section
/-! PROOFS. The sequence numbers of the frames of a session (42_dfu_frame.md R176). -/

namespace Sys2Proof.Machine

/-- An issued DFUFRM with a payload within the bounds (R160, R162). -/
theorem step_of_dfufrm {s : State} {p : List Byte} {rest : List HostAction}
    (hp : s.pending = .command 0x00000005#32 p :: rest) (hlen : p.length ≤ 4095) (hadmits : admitsInput s p = true) :
    ∃ t, step s = .next t ∧ t.seq = s.seq + 1 ∧ t.output = dfuFrame (s.seq + 1) p ∧ t.pending = rest ∧
      t.bufMax = s.bufMax := by
  have hstep : step s = exec .dfufrm (issued p rest s) := step_of_encoded hp hadmits
  exact ⟨_, hstep.trans (exec_dfufrm_of_length_le hlen), rfl, rfl, rfl, rfl⟩

/-- What an IN is held against is BUF_MAX alone (20_memory.md R52). -/
theorem admitsInput_congr {s t : State} (h : t.bufMax = s.bufMax) (bytes : List Byte) :
    admitsInput t bytes = admitsInput s bytes := by
  rw [admitsInput, h, admitsInput]

/-- Each DFUFRM of a run advances SEQ by 1, and the last frame carries the SEQ the run ends with. -/
theorem run_dfufrms (payloads : List (List Byte)) (p : List Byte) (rest : List HostAction) (s : State)
    (hpending : s.pending = (payloads ++ [p]).map (fun x => .command 0x00000005#32 x) ++ rest)
    (hbounds : ∀ x ∈ payloads ++ [p], x.length ≤ 4095 ∧ admitsInput s x = true) :
    ∃ t, core.run (payloads.length + 1) s = .next t ∧ t.seq = s.seq + BitVec.ofNat 3 (payloads.length + 1) ∧
      t.output = dfuFrame t.seq p ∧ t.pending = rest := by
  induction payloads generalizing s with
  | nil =>
    obtain ⟨hlen, hadmits⟩ := hbounds p (List.mem_singleton_self p)
    obtain ⟨t, hstep, hseq, hout, hrest, -⟩ := step_of_dfufrm hpending hlen hadmits
    exact ⟨t, run_succ_of_step hstep, hseq, by rw [hseq, hout], hrest⟩
  | cons x xs ih =>
    obtain ⟨⟨hlen, hadmits⟩, hbounds'⟩ := List.forall_mem_cons.mp hbounds
    obtain ⟨u, hstep, hseq, -, hrest, hbufMax⟩ := step_of_dfufrm hpending hlen hadmits
    obtain ⟨t, hrun, htseq, htout, htrest⟩ :=
      ih u hrest fun y hy => by simpa only [admitsInput_congr hbufMax] using hbounds' y hy
    refine ⟨t, (run_succ_of_step hstep).trans hrun, ?_, htout, htrest⟩
    rw [htseq, hseq, List.length_cons, BitVec.ofNat_add (xs.length + 1) 1, add_right_comm, add_assoc]
    rfl

/-- Settles O37: reset leaves SEQ at 0 and BUF_MAX as it was, and each DFUFRM counts. -/
theorem framesAreNumberedFromReset : Obligations.FramesAreNumberedFromReset := by
  intro s payloads p rest hpending hbounds
  obtain ⟨t, hrun, hseq, hout, hrest⟩ := run_dfufrms payloads p rest (hostReset (popAction _ s)) rfl hbounds
  refine ⟨t, (run_succ_of_step (step_of_reset hpending)).trans hrun, ?_, hout, hrest⟩
  rw [hseq, hostReset_seq, zero_add, BitVec.toNat_ofNat, Nat.zero_add]

end Sys2Proof.Machine
end

section
/-! PROOFS. What the host sends in a DFU session: the payloads, their order, and the firmware's chunks
(42_dfu_frame.md R185 to R191). -/

namespace Sys2Proof.Machine.Session

@[simp] theorem chunksUpTo_nil (k : Nat) : chunksUpTo k [] = [] := by cases k <;> rfl

/-- Behind the first chunk of a firmware there is less of it. -/
theorem length_drop_le_of_cons {k : Nat} {b : Byte} {bs : List Byte} (h : (b :: bs).length ≤ k + 1) :
    ((b :: bs).drop 512).length ≤ k := by
  rw [List.length_drop]
  omega

section
variable (k : Nat) (x : List Byte) (h : x.length ≤ k)
include h

theorem flatten_chunksUpTo : (chunksUpTo k x).flatten = x := by
  fun_induction chunksUpTo k x with
  | case1 x => exact (List.length_eq_zero_iff.mp (Nat.le_zero.mp h)).symm
  | case2 k => rfl
  | case3 k b bs ih =>
    rw [List.flatten_cons, ih (length_drop_le_of_cons h), List.take_append_drop]

theorem length_chunksUpTo : (chunksUpTo k x).length = (x.length + 511) / 512 := by
  fun_induction chunksUpTo k x with
  | case1 x => rw [Nat.le_zero.mp h]; rfl
  | case2 k => rfl
  | case3 k b bs ih =>
    rw [List.length_cons, ih (length_drop_le_of_cons h), List.length_drop, List.length_cons]
    omega

end

/-- A chunk holds at least one byte and at most 512. -/
theorem length_of_mem_chunksUpTo (k : Nat) (x : List Byte) :
    ∀ c ∈ chunksUpTo k x, 0 < c.length ∧ c.length ≤ 512 := by
  fun_induction chunksUpTo k x with
  | case1 x => simp
  | case2 k => simp
  | case3 k b bs ih => exact List.forall_mem_cons.mpr ⟨by simp, ih⟩

/-- A chunk with another behind it is full. -/
theorem length_of_mem_dropLast_chunksUpTo (k : Nat) (x : List Byte) :
    ∀ c ∈ (chunksUpTo k x).dropLast, c.length = 512 := by
  fun_induction chunksUpTo k x with
  | case1 x => simp
  | case2 k => simp
  | case3 k b bs ih =>
    rcases eq_or_ne (chunksUpTo k ((b :: bs).drop 512)) [] with hlast | hmore
    · rw [hlast]
      exact List.forall_mem_nil _
    · have hdrop : (b :: bs).drop 512 ≠ [] := fun hd => hmore (by rw [hd, chunksUpTo_nil])
      have hlong : 512 < (b :: bs).length := Nat.lt_of_not_le (mt List.drop_eq_nil_of_le hdrop)
      rw [List.dropLast_cons_of_ne_nil hmore, List.forall_mem_cons]
      exact ⟨List.length_take_of_le hlong.le, ih⟩

/-- Lists of one length and a last one, joined. -/
theorem length_flatten_of_dropLast {n : Nat} {chunks : List (List Byte)} {c : List Byte}
    (hfull : ∀ d ∈ chunks.dropLast, d.length = n) (hlast : chunks.getLast? = some c) :
    chunks.flatten.length = n * (chunks.length - 1) + c.length := by
  obtain ⟨init, rfl⟩ := List.getLast?_eq_some_iff.mp hlast
  rw [List.dropLast_concat] at hfull
  have hinit : init.flatten.length = init.length * n := by
    rw [List.length_flatten, List.map_congr_left hfull, List.map_const', List.sum_replicate, smul_eq_mul]
  simp [hinit, Nat.mul_comm]

/-- A Data payload is the tag's four bytes and the chunk (R189). -/
theorem dataPayload_eq (chunk : List Byte) : dataPayload chunk = [0x04, 0x00, 0x00, 0x00] ++ chunk := rfl

/-- Settles O54: the last chunk's length is what the full ones before it leave of the whole. -/
theorem firmwareChunks : Obligations.FirmwareChunks := by
  intro firmware
  have hjoin := flatten_chunksUpTo _ firmware le_rfl
  have hfull := length_of_mem_dropLast_chunksUpTo firmware.length firmware
  have hmem := length_of_mem_chunksUpTo firmware.length firmware
  refine ⟨hjoin, length_chunksUpTo _ firmware le_rfl, hfull, fun c hlast => ?_, fun c hc => ?_⟩
  · have htotal := length_flatten_of_dropLast hfull hlast
    rw [hjoin] at htotal
    exact ⟨(Nat.sub_eq_of_eq_add' htotal).symm, (hmem c (List.mem_of_getLast? hlast)).1⟩
  · exact ⟨(hmem c hc).2, by simp [dataPayload_eq], dataPayload_eq c⟩

theorem startPayload_eq (mode softdevice bootloader app : Word) :
    startPayload mode softdevice bootloader app =
      [0x03, 0x00, 0x00, 0x00] ++ le32 mode ++ le32 softdevice ++ le32 bootloader ++ le32 app := rfl

/-- Settles O55: payloads and actions are the lists that the rules write out. -/
theorem sessionPayloadsAndOrder : Obligations.SessionPayloadsAndOrder :=
  ⟨fun mode sd bl app => ⟨startPayload_eq mode sd bl app, rfl⟩, fun _ => rfl, rfl,
    fun _ _ => ⟨rfl, _, rfl, rfl, rfl, rfl, rfl, rfl⟩⟩

end Sys2Proof.Machine.Session
end

section
/-! PROOFS. WRCFG: its words and its four answers (43_control.md R200). -/

namespace Sys2Proof.Machine

/-- WRCFG completes under any CFG, legal or not, and writes its field (R200, R201). -/
theorem exec_wrcfg (f : CfgField) (v : Byte) (s : State) :
    exec (.wrcfg f v) s = .next (writeCfgField f v (complete statusOk [] 0 s)) := rfl

/-- Settles O40: each word is the encoding of WRCFG for its field, and the completion writes that field alone. -/
theorem wrcfgCommand : Obligations.WrcfgCommand := by
  refine ⟨fun w v => ?_, ?_⟩
  · exact ⟨decode_eq_instr_iff_eq_encode w (.wrcfg .delim v), decode_eq_instr_iff_eq_encode w (.wrcfg .esc v),
      decode_eq_instr_iff_eq_encode w (.wrcfg .dsub v), decode_eq_instr_iff_eq_encode w (.wrcfg .esub v)⟩
  · rintro s v o rfl
    exact ⟨exec_wrcfg .delim v s, exec_wrcfg .esc v s, exec_wrcfg .dsub v s, exec_wrcfg .esub v s⟩

end Sys2Proof.Machine
end

section
/-! PROOFS. The register port: what a read answers for each number (43_control.md R202 to R205). -/

namespace Sys2Proof.Machine

theorem step_of_readReg {s : State} {n : Nat} {rest : List HostAction} (h : s.pending = .readReg n :: rest) :
    step s = readPort n (popAction rest s) := by
  unfold step; rw [h]

/-- The port has four registers (R202). -/
theorem portOfNumber_of_three_lt {n : Nat} (h : 3 < n) : portOfNumber n = none := by
  match n, h with
  | _ + 4, _ => rfl

section
variable {s : State} {n : Nat}

theorem readPort_of_no_port (h : portOfNumber n = none) : readPort n s = .refused (.noSuchPort n) := by
  simp [readPort, h]

theorem readPort_of_value {r : PortReg} {v : Word} (hport : portOfNumber n = some r) (hvalue : portValue s r = some v) :
    readPort n s = .next { s with readData := some v } := by
  simp [readPort, hport, hvalue]

theorem readPort_of_no_value {r : PortReg} (hport : portOfNumber n = some r) (hvalue : portValue s r = none) :
    readPort n s = .refused .resultHasNoValue := by
  simp [readPort, hport, hvalue]

theorem portValue_result_of_some {v : Half} (h : s.result = some v) :
    portValue s .result = some (v.setWidth 32) := by
  simp [portValue, h]

theorem portValue_result_of_none (h : s.result = none) : portValue s .result = none := by
  simp [portValue, h]

end

section
variable {s : State} {rest : List HostAction} (hp : s.pending = .readReg 1 :: rest)
include hp

/-- A RESULT that holds a value is handed to the host (R204). -/
theorem step_of_readResult_some {v : Half} (hresult : s.result = some v) :
    step s = .next { s with pending := rest, readData := some (v.setWidth 32) } := by
  have hvalue : portValue (popAction rest s) .result = some (v.setWidth 32) := portValue_result_of_some hresult
  rw [step_of_readReg hp]
  exact readPort_of_value rfl hvalue

/-- A RESULT without a value is the spec's own stop (R204). -/
theorem step_of_readResult_none (hresult : s.result = none) : step s = .refused .resultHasNoValue := by
  have hvalue : portValue (popAction rest s) .result = none := portValue_result_of_none hresult
  rw [step_of_readReg hp]
  exact readPort_of_no_value rfl hvalue

end

/-- Settles O10: one clause for each of the four registers, RESULT with and without a value, and one for no register. -/
theorem registerPortReads : Obligations.RegisterPortReads := by
  refine ⟨fun s n rest hp => ⟨?status, ?resultSome, ?resultNone, ?seq, ?cfg, fun hn => ?noPort⟩, by decide⟩
  case resultSome => rintro rfl v hv; exact step_of_readResult_some hp hv
  case resultNone => rintro rfl hnone; exact step_of_readResult_none hp hnone
  case noPort => rw [step_of_readReg hp, readPort_of_no_port (portOfNumber_of_three_lt hn)]
  all_goals
    rintro rfl
    rw [step_of_readReg hp]
    exact readPort_of_value rfl rfl

end Sys2Proof.Machine
end

section
/-! PROOFS. Runs over the host's coming actions, and what RESULT holds at the end of one in which no CRC16 is issued
(43_control.md R204, 10_state.md R29). -/

namespace Sys2Proof.Machine

/-- A step that answers takes the next action from the list and leaves the others (60_exceptions.md R228). -/
theorem step_pending {s t : State} {a : HostAction} {rest : List HostAction} (hp : s.pending = a :: rest)
    (h : step s = .next t) : t.pending = rest := by
  rcases step_cases h with ⟨hnone, -⟩ | ⟨w, bytes, tail, htail, hrun⟩ | ⟨n, tail, htail, hread⟩ | ⟨tail, htail, rfl⟩
  · exact absurd (hp.symm.trans hnone) (List.cons_ne_nil a rest)
  all_goals obtain ⟨-, rfl⟩ := List.cons.inj (hp.symm.trans htail)
  · obtain ⟨-, ⟨i, -, hexec⟩ | ⟨-, rfl⟩⟩ := runCommand_cases hrun
    · obtain ⟨hpending, -⟩ := commandFrames i _ t hexec
      exact hpending
    · rfl
  · obtain ⟨-, -, -, -, rfl⟩ := readPort_cases hread
    rfl
  · rfl

/-- What each of the actions keeps holds after a run over all of them, and the actions behind them are still to come. -/
theorem run_keeps {P : State → Prop} {acts tail : List HostAction} {s t : State}
    (hkeeps : ∀ a ∈ acts, ∀ (u v : State) (rest : List HostAction),
      u.pending = a :: rest → step u = .next v → P u → P v)
    (hp : s.pending = acts ++ tail) (hs : P s) (hrun : core.run acts.length s = .next t) :
    t.pending = tail ∧ P t := by
  induction acts generalizing s with
  | nil =>
    obtain rfl := Host.Outcome.next.inj hrun
    exact ⟨hp, hs⟩
  | cons a acts ih =>
    obtain ⟨hkeepsFirst, hkeepsRest⟩ := List.forall_mem_cons.mp hkeeps
    obtain ⟨u, hstep, hrest⟩ := run_succ_cases hrun
    exact ih hkeepsRest (step_pending hp hstep) (hkeepsFirst s u _ hp hstep hs) hrest

/-- An action that issues no CRC16 word leaves RESULT, unless it is reset, which takes its value away. -/
theorem step_result_of_no_crc16 {s t : State} {a : HostAction} {rest : List HostAction} (hp : s.pending = a :: rest)
    (hno : ∀ w bytes, .command w bytes = a → ∀ seed, w ≠ encode (.crc16 seed)) (h : step s = .next t) :
    t.result = s.result ∨ (a = .reset ∧ t.result = none) := by
  rcases onlyCrc16AndResetWriteResult s t h with hsame | ⟨seed, bytes, tail, htail, -⟩ | ⟨tail, htail, hnone⟩
  · exact .inl hsame
  · obtain ⟨rfl, -⟩ := List.cons.inj (hp.symm.trans htail)
    exact absurd rfl (hno _ bytes rfl seed)
  · obtain ⟨rfl, -⟩ := List.cons.inj (hp.symm.trans htail)
    exact .inr ⟨rfl, hnone⟩

section
variable {acts tail : List HostAction} {s t : State}
  (hno : ∀ w bytes, HostAction.command w bytes ∈ acts → ∀ seed, w ≠ encode (.crc16 seed))
  (hp : s.pending = acts ++ tail) (hrun : core.run acts.length s = .next t)
include hno hp hrun

/-- With no CRC16 issued, RESULT does not come to hold a value, be there resets or not. -/
theorem run_result_none (hs : s.result = none) : t.pending = tail ∧ t.result = none := by
  refine run_keeps (P := fun u => u.result = none) (fun a ha u v rest hu hstep hnone => ?_) hp hs hrun
  rcases step_result_of_no_crc16 hu (fun w bytes hw => hno w bytes (hw ▸ ha)) hstep with hsame | ⟨-, hv⟩
  · exact hsame.trans hnone
  · exact hv

/-- With no CRC16 issued and no reset, RESULT stays. -/
theorem run_result_of_no_reset (hreset : HostAction.reset ∉ acts) : t.pending = tail ∧ t.result = s.result := by
  refine run_keeps (P := fun u => u.result = s.result) (fun a ha u v rest hu hstep hres => ?_) hp rfl hrun
  rcases step_result_of_no_crc16 hu (fun w bytes hw => hno w bytes (hw ▸ ha)) hstep with hsame | ⟨rfl, -⟩
  · exact hsame.trans hres
  · exact absurd ha hreset

end

/-- A CRC16 that runs writes the checksum of its IN (41_crc16.md R142). -/
theorem step_result_of_crc16 {s t : State} {seed : Half} {bytes : List Byte} {rest : List HostAction}
    (hp : s.pending = .command (encode (.crc16 seed)) bytes :: rest) (h : step s = .next t) :
    t.result = some (crcR141 bytes seed) := by
  obtain ⟨hadmits, -⟩ := runCommand_cases ((step_of_command hp).symm.trans h)
  rw [step_of_encoded hp hadmits, exec_crc16] at h
  obtain rfl := Host.Outcome.next.inj h
  rw [writeResult_result, issued_input, crcR141_eq_crc16]

/-- Settles O11: over a run without a CRC16, RESULT without a value stays so, and a CRC16's checksum stays until
reset. -/
theorem resultReadsLastChecksum : Obligations.ResultReadsLastChecksum := by
  refine ⟨fun s t acts rest hp hnone hno hrun => ?_, fun s t u seed bytes acts rest hp hno hreset hstep hrun => ?_⟩
  · obtain ⟨htp, htnone⟩ := run_result_none hno hp hrun hnone
    exact step_of_readResult_none htp htnone
  · obtain ⟨hup, hures⟩ := run_result_of_no_reset hno (step_pending hp hstep) hrun hreset
    rw [step_result_of_crc16 hp hstep] at hures
    exact ⟨_, step_of_readResult_some hup hures, rfl⟩

end Sys2Proof.Machine
end

section
/-! PROOFS. Errors: which one a command raises, each exactly in its case, and that an error leaves the state as it was
but for STATUS (60_exceptions.md R220 to R223). -/

namespace Sys2Proof.Machine

theorem errCode_injective : Function.Injective errCode := by
  intro e e'
  cases e <;> cases e' <;> decide

/-- The STATUS of an error tells which one was raised. -/
theorem eq_of_raiseError_status {e e' : Err} {s : State} (h : (raiseError e s).status = errCode e') : e = e' :=
  errCode_injective h

theorem isErrorStatus_errCode (e : Err) : isErrorStatus (errCode e) = true :=
  isErrorStatus_of_eq_or (errCode_eq_or e)

theorem isErrorStatus_sdecStatus (d : StuffDecoded) : isErrorStatus (sdecStatus d) = false :=
  isErrorStatus_decStatus _ _ _ _

theorem isErrorStatus_statusOk : isErrorStatus statusOk = false := by decide

/-- A STATUS that is no error's value is none of the three. -/
theorem ne_errCode_of_not_isErrorStatus {v : Half} (h : isErrorStatus v = false) (e : Err) : v ≠ errCode e := by
  rintro rfl
  exact Bool.noConfusion ((isErrorStatus_errCode e).symm.trans h)

/-- The case of each error, in the words of 60_exceptions.md R220. -/
def ErrorCause (s : State) (w : Word) (bytes : List Byte) : Err → Prop
  | .illegal => ¬ WordLegal w
  | .cfg => (w = 0x00000001#32 ∨ w = 0x00000002#32 ∨ w = 0x00000003#32) ∧ ¬ CfgIsLegal s.cfg
  | .len => w = 0x00000005#32 ∧ 4095 < bytes.length

/-! Which errors a legal word's command can raise -/

section
variable {s t : State} {e : Err}

/-- A stuffing command's completion is no error, so its error is ErrCfg and CFG was illegal (40_stuffing.md R115). -/
theorem underLegalCfg_error {st : Half} {out : List Byte} {read : Nat} (hok : isErrorStatus st = false)
    (h : underLegalCfg s (complete st out read s) = .next t) (herr : t.status = errCode e) :
    e = .cfg ∧ ¬ CfgIsLegal s.cfg := by
  rcases underLegalCfg_cases h with ⟨-, rfl⟩ | ⟨hillegal, rfl⟩
  · exact absurd herr (ne_errCode_of_not_isErrorStatus hok e)
  · refine ⟨(eq_of_raiseError_status herr).symm, ?_⟩
    rw [← cfgLegal_iff, hillegal]
    exact Bool.false_ne_true

/-- An error of a command that runs is one of that command's own test: CFG's of the stuffing commands, the length's of
DFUFRM; CRC16 and WRCFG raise none (60_exceptions.md R223, R224). -/
theorem exec_error {i : Instr} (h : exec i s = .next t) (herr : t.status = errCode e) :
    (e = .cfg ∧ (i = .senc ∨ i = .sencw ∨ i = .sdec) ∧ ¬ CfgIsLegal s.cfg) ∨
    (e = .len ∧ i = .dfufrm ∧ lenMax < s.input.length) := by
  cases i with
  | senc =>
    obtain ⟨he, hcfg⟩ := underLegalCfg_error isErrorStatus_statusOk h herr
    exact .inl ⟨he, .inl rfl, hcfg⟩
  | sencw =>
    obtain ⟨he, hcfg⟩ := underLegalCfg_error isErrorStatus_statusOk h herr
    exact .inl ⟨he, .inr (.inl rfl), hcfg⟩
  | sdec =>
    obtain ⟨he, hcfg⟩ := underLegalCfg_error (isErrorStatus_sdecStatus _) h herr
    exact .inl ⟨he, .inr (.inr rfl), hcfg⟩
  | dfufrm =>
    rcases exec_dfufrm_cases h with ⟨hlong, rfl⟩ | ⟨-, rfl⟩
    · exact .inr ⟨(eq_of_raiseError_status herr).symm, rfl, hlong⟩
    · exact absurd herr (ne_errCode_of_not_isErrorStatus isErrorStatus_statusOk e)
  | crc16 seed | wrcfg f v =>
    obtain rfl := Host.Outcome.next.inj h
    exact absurd herr (ne_errCode_of_not_isErrorStatus isErrorStatus_statusOk e)

end

/-! An issued word and its error -/

section
variable {s t : State} {w : Word} {bytes : List Byte} {rest : List HostAction} {e : Err}
  (hp : s.pending = .command w bytes :: rest)
include hp

/-- In an error's case the issue raises that error. -/
theorem step_of_errorCause (hadmits : admitsInput s bytes = true) (hcause : ErrorCause s w bytes e) :
    step s = .next (raiseError e (issued bytes rest s)) := by
  cases e with
  | illegal =>
    obtain ⟨-, hillegal⟩ := illegalWordRaisesErrIllegal
    exact hillegal s w bytes rest hp hadmits hcause
  | cfg =>
    obtain ⟨hword, hcfg⟩ := hcause
    obtain ⟨hstuffing, -⟩ := illegalCfgRaisesErrCfg s w bytes rest hp hadmits hcfg
    exact hstuffing hword
  | len =>
    obtain ⟨rfl, hlong⟩ := hcause
    exact (step_of_encoded (i := .dfufrm) hp hadmits).trans (exec_dfufrm_of_lt_length hlong)

/-- An error's STATUS is raised only in the error's case. -/
theorem errorCause_of_status (h : step s = .next t) (herr : t.status = errCode e) : ErrorCause s w bytes e := by
  rw [step_of_command hp] at h
  obtain ⟨-, ⟨i, hdec, hexec⟩ | ⟨⟨why, hdec⟩, rfl⟩⟩ := runCommand_cases h
  · obtain rfl := encode_of_decode hdec
    rcases exec_error hexec herr with ⟨rfl, hi, hcfg⟩ | ⟨rfl, rfl, hlong⟩
    · refine ⟨?_, hcfg⟩
      rcases hi with rfl | rfl | rfl
      · exact .inl rfl
      · exact .inr (.inl rfl)
      · exact .inr (.inr rfl)
    · exact ⟨rfl, hlong⟩
  · obtain rfl : .illegal = e := eq_of_raiseError_status herr
    intro hlegal
    obtain ⟨i, hinstr⟩ := (exists_decode_iff_wordLegal w).mpr hlegal
    exact nomatch hdec.symm.trans hinstr

/-- The issue that answers t has raised an error exactly in that error's case. -/
theorem status_eq_errCode_iff (hadmits : admitsInput s bytes = true) (h : step s = .next t) :
    t.status = errCode e ↔ ErrorCause s w bytes e := by
  refine ⟨errorCause_of_status hp h, fun hcause => ?_⟩
  obtain rfl := Host.Outcome.next.inj (h.symm.trans (step_of_errorCause hp hadmits hcause))
  rfl

/-- A command that answers with an error's STATUS has done nothing but raise that error (60_exceptions.md R222). -/
theorem eq_raiseError_of_isErrorStatus (h : step s = .next t) (herr : isErrorStatus t.status = true) :
    ∃ e, t = raiseError e (issued bytes rest s) := by
  rw [step_of_command hp] at h
  obtain ⟨-, ⟨i, -, hexec⟩ | ⟨-, rfl⟩⟩ := runCommand_cases h
  · rcases exec_status hexec with hraised | ⟨-, hstatus⟩ | ⟨-, hstatus⟩
    · exact hraised
    · simp [hstatus, isErrorStatus_sdecStatus] at herr
    · simp [hstatus, isErrorStatus_statusOk] at herr
  · exact ⟨.illegal, rfl⟩

end

/-! The error bits of STATUS -/

/-- An error's value has its bit among the three lowest. -/
theorem errorBits_of_isErrorStatus {v : Half} (h : isErrorStatus v = true) : v.extractLsb' 0 3 ≠ 0#3 := by
  simp only [isErrorStatus, Bool.or_eq_true, beq_iff_eq] at h
  rcases h with (rfl | rfl) | rfl <;> decide

/-- DEC bits are none of the three lowest (10_state.md R26). -/
theorem errorBits_of_isDecStatus {v : Half} (h : isDecStatus v = true) : v.extractLsb' 0 3 = 0#3 := by
  have hmasked : v &&& 0xFF0F#16 = 0#16 := by simpa [isDecStatus] using h
  have hmask : BitVec.extractLsb' 0 3 0xFF0F#16 = BitVec.allOnes 3 := rfl
  calc v.extractLsb' 0 3
      = v.extractLsb' 0 3 &&& BitVec.extractLsb' 0 3 0xFF0F#16 := by rw [hmask, BitVec.and_allOnes]
    _ = (v &&& 0xFF0F#16).extractLsb' 0 3 := BitVec.extractLsb'_and.symm
    _ = 0#3 := by rw [hmasked]; rfl

/-- Of the values STATUS can have, those without an error bit are the ones that are no error's. -/
theorem errorBits_eq_zero_iff {v : Half} (h : statusAllowed v = true) :
    v.extractLsb' 0 3 = 0#3 ↔ isErrorStatus v = false := by
  cases herr : isErrorStatus v with
  | true => simp [errorBits_of_isErrorStatus herr]
  | false =>
    simp only [statusAllowed, herr, Bool.false_or, Bool.and_eq_true] at h
    obtain ⟨hdec, -⟩ := h
    simp [errorBits_of_isDecStatus hdec]

/-- Settles O46: for each error `status_eq_errCode_iff`, and a command leaves no STATUS that is not allowed. -/
theorem errorsAndTheirCauses : Obligations.ErrorsAndTheirCauses := by
  intro s w bytes rest hp hadmits
  obtain ⟨t, hrun⟩ := runCommand_answers (w := w) (rest := rest) hadmits
  have hstep : step s = .next t := (step_of_command hp).trans hrun
  refine ⟨t, hstep, status_eq_errCode_iff (e := .illegal) hp hadmits hstep,
    status_eq_errCode_iff (e := .cfg) hp hadmits hstep, status_eq_errCode_iff (e := .len) hp hadmits hstep, ?_⟩
  rw [errorBits_eq_zero_iff (runCommand_settled hrun).status]
  simp [isErrorStatus, and_assoc]

/-- Settles O47: such a step is `raiseError`, which writes STATUS, OUT and IN only. -/
theorem errorsArePrecise : Obligations.ErrorsArePrecise := by
  intro s t w bytes rest hp h herr
  obtain ⟨e, rfl⟩ := eq_raiseError_of_isErrorStatus hp h herr
  exact ⟨rfl, rfl, rfl, rfl, rfl, rfl, rfl, rfl⟩

end Sys2Proof.Machine
end

section
/-! PROOFS. The host actions that have no step (60_exceptions.md R231). -/

namespace Sys2Proof.Machine

theorem step_of_no_action {s : State} (h : s.pending = []) : step s = .next s := by
  unfold step; rw [h]

/-- An IN is admitted unless BUF_MAX is a number that it exceeds (20_memory.md R52). -/
theorem admitsInput_of_not_too_long {s : State} {bytes : List Byte}
    (h : ∀ n, s.bufMax = some n → ¬ n < bytes.length) : admitsInput s bytes = true := by
  cases hmax : s.bufMax with
  | none => exact admitsInput_of_unbounded hmax bytes
  | some n => simpa [admitsInput, hmax] using h n hmax

/-- A register read answers when the number is a register's and the register holds a value (43_control.md R202). -/
theorem step_of_readReg_answers {s : State} {n : Nat} {rest : List HostAction} (hp : s.pending = .readReg n :: rest)
    (hport : n ≤ 3) (hresult : n = 1 → s.result ≠ none) : ∃ t, step s = .next t := by
  obtain ⟨hreads, -⟩ := registerPortReads
  obtain ⟨hstatus, hvalue, -, hseq, hcfg, -⟩ := hreads s n rest hp
  match n, hport with
  | 0, _ => exact ⟨_, hstatus rfl⟩
  | 1, _ =>
    obtain ⟨v, hv⟩ := Option.ne_none_iff_exists'.mp (hresult rfl)
    exact ⟨_, hvalue rfl v hv⟩
  | 2, _ => exact ⟨_, hseq rfl⟩
  | 3, _ => exact ⟨_, hcfg rfl⟩

/-- Settles O14: each of the three actions is refused, and action by action the step answers when it is none of them. -/
theorem noStepOnlyForThreeHostActions : Obligations.NoStepOnlyForThreeHostActions := by
  intro s
  constructor
  · rintro ⟨t, ht⟩ (⟨w, bytes, rest, n, hp, hmax, hlong⟩ | ⟨n, rest, hp, hn⟩ | ⟨rest, hp, hnone⟩)
    · rw [step_of_command hp, runCommand_of_not_admitted (admitsInput_of_too_long hmax hlong)] at ht
      cases ht
    · rw [step_of_readReg hp, readPort_of_no_port (portOfNumber_of_three_lt hn)] at ht
      cases ht
    · rw [step_of_readResult_none hp hnone] at ht
      cases ht
  · intro hno
    obtain ⟨hinput, hread⟩ := not_or.mp hno
    obtain ⟨hport, hresult⟩ := not_or.mp hread
    match hp : s.pending with
    | [] => exact ⟨s, step_of_no_action hp⟩
    | .command w bytes :: rest =>
      rw [step_of_command hp]
      exact runCommand_answers (admitsInput_of_not_too_long fun n hmax hlong =>
        hinput ⟨w, bytes, rest, n, hp, hmax, hlong⟩)
    | .readReg n :: rest =>
      refine step_of_readReg_answers hp (Nat.le_of_not_lt fun hn => hport ⟨n, rest, hp, hn⟩) ?_
      rintro rfl hnone
      exact hresult ⟨rest, hp, hnone⟩
    | .reset :: rest => exact ⟨_, step_of_reset hp⟩

end Sys2Proof.Machine
end

section
/-! PROOFS. A step with no host action (70_reset_and_hazards.md R252). -/

namespace Sys2Proof.Machine

/-- Settles O13: with no action pending the step takes its waiting branch, which answers the state it was given. -/
theorem blockWaitsForTheHost : Obligations.BlockWaitsForTheHost := by
  intro s hempty
  exact step_of_no_action hempty

end Sys2Proof.Machine
end
